-- ==== Sys2Proof/Word.lean ====
section
/-! DEFINITION. The word types of the B32 core: its registers and fields are 8 or 16 bits wide (10_state.md R20, 30_encoding.md R70). -/

namespace Sys2Proof

/-- 8 bits, a value in `0..255` (00_scope.md R7): A, B, a memory byte, an imm8. -/
abbrev Byte := BitVec 8

/-- 16 bits, a value in `0..65535`: X, Y, the view D, `start`, an imm16 or addr16. -/
abbrev Half := BitVec 16

end Sys2Proof
end

