-- ==== Sys2Proof/Config.lean ====
section
/-! DEFINITION. The implementation parameters of 00_scope.md R6: their types, and the constants the spec leaves OPEN. -/

namespace Sys2Proof

/-- The receiver of a mapped range's writes, by name. What a handler does is outside the core (20_memory.md R62). -/
inductive Handler where
  /-- The memory-mapped text display (60_exceptions.md R210). -/
  | display
  /-- Any other peripheral, told apart by a number. -/
  | device (n : Nat)
  deriving DecidableEq, Repr

/-- One entry of `PERIPH`: the mapped range `(lo, hi, handler)` (20_memory.md R61).
The bounds are mathematical integers (00_scope.md R7): the core checks them against nothing. -/
structure Mapping where
  lo : Int
  hi : Int
  handler : Handler
  deriving DecidableEq, Repr

/-- `DISPLAY_BASE`, `DISPLAY_WIDTH`, `DISPLAY_HEIGHT`: base address, and size in cells (00_scope.md R6). -/
structure Display where
  base : Nat
  width : Nat
  height : Nat
  deriving DecidableEq, Repr

/-- The parameters of one computer, "fixed when the computer is constructed" (00_scope.md R6). -/
structure Config where
  /-- `MEM_SIZE`: the memory has the addresses `0 .. memSize - 1`. -/
  memSize : Nat
  /-- `PERIPH`, in registration order. -/
  periph : List Mapping
  /-- `ORIGIN`: the address the assembler writes as load and as entry address. -/
  origin : Half
  /-- The display's geometry. -/
  display : Display
  /-- `RUN_DELAY`: "no rule depends on it" (70_reset_and_hazards.md R233). -/
  runDelay : Nat
  deriving DecidableEq, Repr

/-- `DISPLAY_BASE`: OPEN in the spec (D30, log 4), so no value can be seen. -/
opaque Config.displayBase : Nat

/-- `DISPLAY_WIDTH`: OPEN in the spec (D30, log 4). -/
opaque Config.displayWidth : Nat

/-- `DISPLAY_HEIGHT`: OPEN in the spec (D30, log 4). -/
opaque Config.displayHeight : Nat

/-- `RUN_DELAY`: OPEN in the spec (D29, log 4). -/
opaque Config.openRunDelay : Nat

end Sys2Proof
end

