-- ==== Sys2Proof/Syntax.lean ====
section
/-! DEFINITION. The 26 instructions of the opcode table (30_encoding.md R73), with their operands decoded (R72). -/

namespace Sys2Proof

/-- One constructor per row of the opcode table, in the table's order.
`imm` is an unsigned immediate, `off` a byte offset from the program's start (30_encoding.md R72). -/
inductive Instr where
  /-- Load A with an imm8 (R90). -/
  | lda (imm : Byte)
  /-- Load X with an imm16 (R92). -/
  | ldx (imm : Half)
  /-- Store A to memory at `[X]` (R94). -/
  | sta
  /-- END: halt execution (R150). -/
  | endOp
  /-- Compare A with an imm8 (R111). -/
  | cmpa (imm : Byte)
  /-- Compare B with an imm8 (R112). -/
  | cmpb (imm : Byte)
  /-- Compare X with an imm16 (R113). -/
  | cmpx (imm : Half)
  /-- Compare Y with an imm16 (R114). -/
  | cmpy (imm : Half)
  /-- Compare the view D with an imm16 (R115). -/
  | cmpd (imm : Half)
  /-- Unconditional jump (R121). -/
  | jmp (off : Half)
  /-- Jump if EQ (R122). -/
  | jeq (off : Half)
  /-- Jump if NE (R123). -/
  | jne (off : Half)
  /-- Jump if GT (R124). -/
  | jgt (off : Half)
  /-- Jump if LT (R125). -/
  | jlt (off : Half)
  /-- Add one to A (R130). -/
  | inca
  /-- Add one to B (R131). -/
  | incb
  /-- Add one to X (R132). -/
  | incx
  /-- Add one to Y (R133). -/
  | incy
  /-- Add one to the pair D (R134). -/
  | incd
  /-- Subtract one from A (R135). -/
  | deca
  /-- Subtract one from B (R136). -/
  | decb
  /-- Subtract one from X (R137). -/
  | decx
  /-- Subtract one from Y (R138). -/
  | decy
  /-- Subtract one from the pair D (R139). -/
  | decd
  /-- Load B with an imm8 (R91). -/
  | ldb (imm : Byte)
  /-- Load Y with an imm16 (R93). -/
  | ldy (imm : Half)
  deriving DecidableEq, Repr

end Sys2Proof
end

