-- ==== Sys2Proof/WellFormed.lean ====
section
/-! DEFINITION. What is checked of a term before it means anything: of a configuration, the range of `MEM_SIZE`; of an instruction, nothing beyond its operands' widths, which their types hold. -/

namespace Sys2Proof

/-- `MEM_SIZE` is "any value in `1..65536`" (00_scope.md R6, D27). -/
def Config.wellFormed (c : Config) : Bool :=
  decide (1 ≤ c.memSize) && decide (c.memSize ≤ 65536)

/-- Every instruction term is well-formed: "every value of an imm8, imm16 or addr16 is legal" (30_encoding.md R75), and an
operand's type holds its width. One clause per constructor, so that a check added later has its place. -/
def Instr.wellFormed : Instr → Bool
  | .lda _ | .ldb _ | .ldx _ | .ldy _ | .sta | .endOp => true
  | .cmpa _ | .cmpb _ | .cmpx _ | .cmpy _ | .cmpd _ => true
  | .jmp _ | .jeq _ | .jne _ | .jgt _ | .jlt _ => true
  | .inca | .incb | .incx | .incy | .incd => true
  | .deca | .decb | .decx | .decy | .decd => true

end Sys2Proof
end

