-- ==== Sys2Proof/Decode.lean ====
section
/-! DEFINITION. The instruction encoding of 30_encoding.md: byte order, formats, opcode map, the decoder, and the encoder. -/

namespace Sys2Proof

/-- Two bytes as one value, the byte at the lower address first: "big-endian ... the high byte is at the lower address"
(20_memory.md R53, D2, log 12). -/
def bigEndian (first second : Byte) : Half :=
  BitVec.ofNat 16 (first.toNat * 256 + second.toNat)

/-- `hi(v) = v div 256` (00_scope.md R7). -/
def hiByte (v : Half) : Byte := BitVec.ofNat 8 (v.toNat / 256)

/-- `lo(v) = v mod 256` (00_scope.md R7). -/
def loByte (v : Half) : Byte := BitVec.ofNat 8 (v.toNat % 256)

/-- The four operand encodings of 30_encoding.md R70 and R71, each with the instruction its operand makes. -/
inductive Layout where
  /-- Format `N`: no operand byte. -/
  | none (i : Instr)
  /-- Format `I8`: a 1-byte immediate. -/
  | imm8 (mk : Byte → Instr)
  /-- Format `I16`: a 2-byte immediate. -/
  | imm16 (mk : Half → Instr)
  /-- Format `A16`: a 2-byte label-relative address. -/
  | addr16 (mk : Half → Instr)

/-- The length in bytes that a format gives, opcode byte included (R71). -/
def Layout.length : Layout → Nat
  | .none _ => 1
  | .imm8 _ => 2
  | .imm16 _ => 3
  | .addr16 _ => 3

/-- The opcode map of R73: the whole opcode byte decides. A byte with no row is unrecognised (R75). -/
def layoutOf (op : Byte) : Option Layout :=
  match op.toNat with
  | 0x01 => some (.imm8 .lda)
  | 0x02 => some (.imm16 .ldx)
  | 0x03 => some (.none .sta)
  | 0x04 => some (.none .endOp)
  | 0x05 => some (.imm8 .cmpa)
  | 0x06 => some (.imm8 .cmpb)
  | 0x07 => some (.imm16 .cmpx)
  | 0x08 => some (.imm16 .cmpy)
  | 0x09 => some (.imm16 .cmpd)
  | 0x0A => some (.addr16 .jmp)
  | 0x0B => some (.addr16 .jeq)
  | 0x0C => some (.addr16 .jne)
  | 0x0D => some (.addr16 .jgt)
  | 0x0E => some (.addr16 .jlt)
  | 0x0F => some (.none .inca)
  | 0x10 => some (.none .incb)
  | 0x11 => some (.none .incx)
  | 0x12 => some (.none .incy)
  | 0x13 => some (.none .incd)
  | 0x14 => some (.none .deca)
  | 0x15 => some (.none .decb)
  | 0x16 => some (.none .decx)
  | 0x17 => some (.none .decy)
  | 0x18 => some (.none .decd)
  | 0x22 => some (.imm8 .ldb)
  | 0x23 => some (.imm16 .ldy)
  | _ => Option.none

/-- Why bytes are no instruction. -/
inductive DecodeError where
  /-- There is no byte to be the opcode. -/
  | noOpcode
  /-- The opcode byte has no row (30_encoding.md R75). -/
  | unknownOpcode (op : Byte)
  /-- The operand bytes end too early: `op` asks for `needed` bytes in all. -/
  | truncated (op : Byte) (needed : Nat)
  deriving DecidableEq, Repr

/-- Read one instruction off the front of `bytes`, with the rest (30_encoding.md R72, R74). Total; every refusal is named. -/
def decode (bytes : List Byte) : Except DecodeError (Instr × List Byte) :=
  match bytes with
  | [] => .error .noOpcode
  | op :: rest =>
    match layoutOf op, rest with
    | Option.none, _ => .error (.unknownOpcode op)
    | some (.none i), rest => .ok (i, rest)
    | some (.imm8 mk), b :: rest => .ok (mk b, rest)
    | some (.imm16 mk), h :: l :: rest => .ok (mk (bigEndian h l), rest)
    | some (.addr16 mk), h :: l :: rest => .ok (mk (bigEndian h l), rest)
    | some f, _ => .error (.truncated op f.length)

/-- Format `I8` as bytes (R71). -/
def encode8 (op imm : Byte) : List Byte := [op, imm]

/-- Formats `I16` and `A16` as bytes: operand high byte first (R71). -/
def encode16 (op : Byte) (v : Half) : List Byte := [op, hiByte v, loByte v]

/-- The bytes of an instruction, at ascending addresses (30_encoding.md R71, R73; 45_assembler.md R183). -/
def encode : Instr → List Byte
  | .lda imm => encode8 0x01 imm
  | .ldx imm => encode16 0x02 imm
  | .sta => [0x03]
  | .endOp => [0x04]
  | .cmpa imm => encode8 0x05 imm
  | .cmpb imm => encode8 0x06 imm
  | .cmpx imm => encode16 0x07 imm
  | .cmpy imm => encode16 0x08 imm
  | .cmpd imm => encode16 0x09 imm
  | .jmp off => encode16 0x0A off
  | .jeq off => encode16 0x0B off
  | .jne off => encode16 0x0C off
  | .jgt off => encode16 0x0D off
  | .jlt off => encode16 0x0E off
  | .inca => [0x0F]
  | .incb => [0x10]
  | .incx => [0x11]
  | .incy => [0x12]
  | .incd => [0x13]
  | .deca => [0x14]
  | .decb => [0x15]
  | .decx => [0x16]
  | .decy => [0x17]
  | .decd => [0x18]
  | .ldb imm => encode8 0x22 imm
  | .ldy imm => encode16 0x23 imm

/-- The length `L` of an instruction in bytes (30_encoding.md R71; 45_assembler.md R175). -/
def Instr.length : Instr → Nat
  | .sta | .endOp => 1
  | .inca | .incb | .incx | .incy | .incd => 1
  | .deca | .decb | .decx | .decy | .decd => 1
  | .lda _ | .ldb _ | .cmpa _ | .cmpb _ => 2
  | .ldx _ | .ldy _ | .cmpx _ | .cmpy _ | .cmpd _ => 3
  | .jmp _ | .jeq _ | .jne _ | .jgt _ | .jlt _ => 3

/-- The byte at place `k` of a word whose first byte is its least significant one. -/
def wordByte (w k : Nat) : Byte := BitVec.ofNat 8 (w / 256 ^ k)

/-- The three bytes, the longest instruction's, that an opcode-table word stands for: bit 0 of `w` is the first byte's
least significant bit, and every bit from `nbits` up is 0. -/
def tableBytes (nbits w : Nat) : List Byte :=
  [wordByte (w % 2 ^ nbits) 0, wordByte (w % 2 ^ nbits) 1, wordByte (w % 2 ^ nbits) 2]

/-- What the decoder reads from an opcode-table word of `nbits` bits. -/
def decodeTableWord (nbits w : Nat) : Option Instr :=
  match decode (tableBytes nbits w) with
  | .ok (i, _) => some i
  | .error _ => Option.none

end Sys2Proof
end

