-- ==== Sys2Proof/Machine/Periph.lean ====
section
/-! DEFINITION. The peripheral map and the construction of a computer (20_memory.md R61 to R63; 70_reset_and_hazards.md R220). -/

namespace Sys2Proof

/-- "An address `a` is inside the entry when `lo <= a <= hi`": inclusive at both ends (20_memory.md R61, D11, log 11). -/
def Mapping.covers (m : Mapping) (a : Nat) : Bool :=
  decide (m.lo ≤ (a : Int)) && decide ((a : Int) ≤ m.hi)

/-- `mapMemory(lo, hi, handler)` appends one entry to `PERIPH` and checks nothing (20_memory.md R61). -/
def Config.mapMemory (c : Config) (lo hi : Int) (h : Handler) : Config :=
  { c with periph := c.periph ++ [{ lo := lo, hi := hi, handler := h }] }

/-- Map the display at `lo = DISPLAY_BASE`, `hi = DISPLAY_BASE + 2 * DISPLAY_WIDTH * DISPLAY_HEIGHT - 1` (20_memory.md R63). -/
def Config.mapDisplay (c : Config) : Config :=
  c.mapMemory c.display.base (c.display.base + 2 * c.display.width * c.display.height - 1) .display

/-- The default computer: 64 KiB, ORIGIN 4096, "and the display is the one mapped peripheral"
(70_reset_and_hazards.md R220; 00_scope.md R6). -/
def Config.default : Config :=
  Config.mapDisplay
    { memSize := 65536
      periph := []
      origin := 4096
      display := { base := Config.displayBase, width := Config.displayWidth, height := Config.displayHeight }
      runDelay := Config.openRunDelay }

end Sys2Proof
end

