-- ==== Sys2Proof/Machine/State.lean ====
section
/-! DEFINITION. The state of the B32 core (10_state.md), its reasons to stop, its output events, and the state after `init`. -/

namespace Sys2Proof.Machine

/-- The register names of 00_scope.md R8: A, B, D, X, Y. -/
inductive Reg where
  | a | b | d | x | y
  deriving DecidableEq, Repr

/-- Why a step does not complete. The host gets the reason; the state is the state before the step (60_exceptions.md R204). -/
inductive Fault where
  /-- Raised by the fetch of any instruction byte at `addr >= MEM_SIZE` (60_exceptions.md R202). Safe: the model stops
  where the source describes nothing (D5, log 5). -/
  | fetchOutOfRange (addr : Nat)
  /-- Raised by the fetch of an opcode byte `op` at `pc` that has no row: the spec's `HaltUnknown(pc, op)`
  (44_system.md R151, 60_exceptions.md R201). The stop is the spec's; the reported `pc` is unsafe (D7, log 7). -/
  | unknownOpcode (pc : Nat) (op : Byte)
  /-- Raised by STA when `x[X] >= MEM_SIZE` (60_exceptions.md R203). Safe: the source is silent there (D6, log 6). -/
  | storeOutOfRange (addr : Nat)
  deriving DecidableEq, Repr

/-- Why an instruction has no meaning in the model. -/
inductive Refusal where
  /-- Raised by an arm of `exec` whose instruction is not modelled. Safe. No arm raises it: all 26 are modelled. -/
  | notModelled (mnemonic : String)
  deriving DecidableEq, Repr

/-- The register-observer's record (44_system.md R154, D16, log 27). -/
structure Snapshot where
  a : Byte
  b : Byte
  d : Half
  x : Half
  y : Half
  eqF : Bool
  neF : Bool
  ltF : Bool
  gtF : Bool
  ovf : Bool
  carry : Bool
  deriving DecidableEq, Repr

/-- What the assembler reports (45_assembler.md R184). `line` counts the lines of the text from 1 (log 19). -/
inductive AsmDiag where
  | unknownMnemonic (line : Nat) (token : List Char)
  | malformedOperand (line : Nat)
  | undefinedLabel (line : Nat) (identifier : List Char)
  | duplicateLabel (line : Nat) (identifier : List Char)
  | labelTrailingText (line : Nat)
  | programTooLong
  deriving DecidableEq, Repr

/-- What the diagnostic channel carries: the event `diag(kind, info)` (00_scope.md R11, R12). -/
inductive Diag where
  /-- `diag(UnknownOpcode, (pc, op))` (44_system.md R151). -/
  | unknownOpcode (pc : Nat) (op : Byte)
  /-- The diagnostic of an abnormal end by `FetchOutOfRange` (60_exceptions.md R207, log 10). -/
  | fetchOutOfRange (addr : Nat)
  /-- The diagnostic of an abnormal end by `StoreOutOfRange` (60_exceptions.md R207, log 10). -/
  | storeOutOfRange (addr : Nat)
  /-- `diag(BadMagic)` (70_reset_and_hazards.md R222). -/
  | badMagic
  /-- A diagnostic of the assembler. -/
  | asm (d : AsmDiag)
  deriving DecidableEq, Repr

/-- An event the core emits (00_scope.md R11). -/
inductive Event where
  /-- `handler(addr, v)`: a mapped range's handler is called with the absolute address and the byte (20_memory.md R52). -/
  | handler (h : Handler) (addr : Nat) (v : Byte)
  /-- `notify(snapshot)` (44_system.md R154). -/
  | notify (snapshot : Snapshot)
  /-- `diag(kind, info)`. -/
  | diag (d : Diag)
  deriving DecidableEq, Repr

/-- How one step ends (00_scope.md R10). -/
inductive StepOutcome where
  /-- `Continue`. -/
  | continued
  /-- `HaltEnd(pc)`: `pc` is one past the END byte. -/
  | haltEnd (pc : Nat)
  /-- `HaltUnknown(pc, op)`: abnormal. -/
  | haltUnknown (pc : Nat) (op : Byte)
  /-- `Fault(FetchOutOfRange, addr)`: abnormal. -/
  | fetchFault (addr : Nat)
  /-- `Fault(StoreOutOfRange, addr)`: abnormal. -/
  | storeFault (addr : Nat)
  deriving DecidableEq, Repr

/-- The memory array as (address, byte) pairs: addresses strictly rising, no entry 0, and every address without an entry
holds 0, the value `init` gives it (10_state.md R29, R33; log 23). -/
abbrev Memory := List Host.Cell

/-- Everything the spec gives the machine (10_state.md R20 to R34), its fixed parameters, and what it has told the host. -/
structure State where
  /-- The parameters of the computer; nothing changes them (10_state.md R30, log 1). -/
  cfg : Config
  /-- Register A (R20). -/
  a : Byte
  /-- Register B (R20). -/
  b : Byte
  /-- Register X (R20). -/
  x : Half
  /-- Register Y (R20). -/
  y : Half
  /-- The instruction pointer, a natural number that never wraps (R22, log 5). -/
  pc : Nat
  /-- The start address of the most recently loaded image (R23). -/
  start : Half
  /-- EQUAL (R24). -/
  eqF : Bool
  /-- NOT_EQUAL (R24). -/
  neF : Bool
  /-- LESS (R24). -/
  ltF : Bool
  /-- GREATER (R24). -/
  gtF : Bool
  /-- The overflow flag (R25). -/
  ovf : Bool
  /-- The carry flag, always 0 (R26). -/
  carry : Bool
  /-- The flat memory (R29). -/
  mem : Memory
  /-- Output: the events emitted so far, oldest first (20_memory.md R62, log 9). No step reads it. -/
  events : List Event
  /-- Output: the outcome of the last step (00_scope.md R10, log 8). No step reads it: it latches nothing (R32). -/
  outcome : Option StepOutcome
  deriving DecidableEq, Repr

/-- The state after `init` of a computer with the parameters `c`: the table of 10_state.md R33 (logs 2, 3). -/
def State.initial (c : Config) : State :=
  { cfg := c
    a := 0
    b := 0
    x := 0
    y := 0
    pc := 0
    start := 0
    eqF := false
    neF := false
    ltF := false
    gtF := false
    ovf := false
    carry := false
    mem := []
    events := []
    outcome := none }

/-- The default computer, constructed and initialised (70_reset_and_hazards.md R220, R221). -/
def State.reset : State := State.initial Config.default

end Sys2Proof.Machine
end

