-- ==== Sys2Proof/Machine/Flags.lean ====
section
/-! DEFINITION. The condition flag unit: the overflow rule of setReg and the compare operation (10_state.md R24 to R27; 41_compare.md R110). -/

namespace Sys2Proof.Machine

/-- The largest value a register of `w` bits can hold. -/
def maxValue (w : Nat) : Int := 2 ^ w - 1

/-- `OVF <- 1 if v > 2^W - 1 else 0`; a value below zero is no overflow (10_state.md R25, R27). -/
def overflows (w : Nat) (v : Int) : Bool := decide (v > maxValue w)

/-- `compare(v, imm)`: four independent tests of unsigned integers, all four flags rewritten (41_compare.md R110). -/
def State.compare (s : State) (v imm : Nat) : State :=
  { s with
    eqF := decide (v = imm)
    neF := decide (v ≠ imm)
    ltF := decide (v < imm)
    gtF := decide (v > imm) }

end Sys2Proof.Machine
end

