-- ==== Sys2Proof/Machine/Operands.lean ====
section
/-! DEFINITION. Operand forms: register reads, the store address, the jump target (10_state.md R20, R21; 40_load_store.md R94; 42_jump.md R120). -/

namespace Sys2Proof.Machine

/-- The view `D = A * 256 + B`: A is the high byte (10_state.md R21). -/
def pairValue (a b : Byte) : Nat := a.toNat * 256 + b.toNat

/-- The value of D, 16 bits (10_state.md R21). -/
def State.regD (s : State) : Half := BitVec.ofNat 16 (pairValue s.a s.b)

/-- `x[r]`: the unsigned value of a register (00_scope.md R8; 10_state.md R20). -/
def State.readReg (s : State) : Reg → Nat
  | .a => s.a.toNat
  | .b => s.b.toNat
  | .d => pairValue s.a s.b
  | .x => s.x.toNat
  | .y => s.y.toNat

/-- `W`: 8 for A and B, else 16 (10_state.md R27). -/
def Reg.width : Reg → Nat
  | .a | .b => 8
  | .d | .x | .y => 16

/-- The address STA stores to: `x[X]` (40_load_store.md R94). -/
def State.storeAddress (s : State) : Nat := s.x.toNat

/-- The target of a taken jump: `start + off`, reduced modulo nothing (42_jump.md R120, D35, log 22). -/
def State.jumpTarget (s : State) (off : Half) : Nat := s.start.toNat + off.toNat

end Sys2Proof.Machine
end

