-- ==== Sys2Proof/Machine/Ops.lean ====
section
/-! DEFINITION. The named operations over memory and registers: MemRead, MemWrite, setReg, the pc, the observer event, and the end of a step, normal or abnormal. -/

namespace Sys2Proof.Machine

/-- The byte the array holds at `a`; an address without an entry holds 0 (10_state.md R33). -/
def Memory.get : Memory → Nat → Byte
  | [], _ => 0
  | (k, v) :: m, a => if k = a then v else Memory.get m a

/-- Put an entry in front, unless its byte is what an address without an entry holds. -/
def Memory.consCell (a : Nat) (v : Byte) (m : Memory) : Memory :=
  if v = 0 then m else (a, v) :: m

/-- `mem[a] <- v`, keeping the canonical form. -/
def Memory.set : Memory → Nat → Byte → Memory
  | [], a, v => Memory.consCell a v []
  | (k, b) :: m, a, v =>
    if a < k then Memory.consCell a v ((k, b) :: m)
    else if a = k then Memory.consCell a v m
    else (k, b) :: Memory.set m a v

/-- Direct array writes at `a`, `a + 1`, ...: the loader's copy (70_reset_and_hazards.md R222). -/
def Memory.copy (m : Memory) (a : Nat) : List Byte → Memory
  | [] => m
  | v :: vs => Memory.copy (m.set a v) (a + 1) vs

/-- The entries lie at addresses from `lo` up, strictly rising, none 0. -/
def Memory.wfFrom : Nat → Memory → Bool
  | _, [] => true
  | lo, (k, v) :: m => decide (lo ≤ k) && decide (v ≠ 0) && Memory.wfFrom (k + 1) m

/-- The canonical form of a memory. -/
def Memory.wf (m : Memory) : Bool := Memory.wfFrom 0 m

/-- Every entry's address is below `size`. -/
def Memory.within (m : Memory) (size : Nat) : Bool := m.all fun c => decide (c.1 < size)

/-- The byte at address `a`, where there is one (20_memory.md R50). -/
def State.readByte (s : State) (a : Nat) : Option Byte :=
  if a < s.cfg.memSize then some (s.mem.get a) else none

/-- `MemRead(addr, 1)`: the fetch read of one byte; it consults no peripheral and changes nothing (20_memory.md R51). -/
def State.memRead (s : State) (a : Nat) : Except Fault Byte :=
  match s.readByte a with
  | some v => .ok v
  | none => .error (.fetchOutOfRange a)

/-- `MemRead(addr, 2)`: two byte reads, the lower address first, big-endian (20_memory.md R51, R53, R55). -/
def State.memRead2 (s : State) (a : Nat) : Except Fault Half :=
  match s.memRead a with
  | .error f => .error f
  | .ok h =>
    match s.memRead (a + 1) with
    | .error f => .error f
    | .ok l => .ok (bigEndian h l)

/-- The handler calls of a write of `v` to `a`: every matching entry, in registration order (20_memory.md R52, log 11). -/
def handlerEvents (periph : List Mapping) (a : Nat) (v : Byte) : List Event :=
  (periph.filter fun m => m.covers a).map fun m => .handler m.handler a v

/-- `MemWrite(addr, 1, v)`, the source's `poke`: out of range it faults; else the handlers, then the array, always
(20_memory.md R52). -/
def State.memWrite (s : State) (a : Nat) (v : Byte) : Host.Outcome State Fault Refusal :=
  if s.cfg.memSize ≤ a then .fault (.storeOutOfRange a)
  else .next { s with
    events := s.events ++ handlerEvents s.cfg.periph a v
    mem := s.mem.set a v }

/-- `v mod 2^W`, Euclidean (00_scope.md R7, 10_state.md R27). -/
def wrap (w : Nat) (v : Int) : Nat := (v % 2 ^ w).toNat

/-- The raw storage write of a wrapped value; D is split into A, `w div 256`, and B, `w mod 256` (10_state.md R21, R27). -/
def State.writeReg (s : State) (r : Reg) (w : Nat) : State :=
  match r with
  | .a => { s with a := BitVec.ofNat 8 w }
  | .b => { s with b := BitVec.ofNat 8 w }
  | .x => { s with x := BitVec.ofNat 16 w }
  | .y => { s with y := BitVec.ofNat 16 w }
  | .d => { s with a := BitVec.ofNat 8 (w / 256), b := BitVec.ofNat 8 (w % 256) }

/-- `setReg(r, v)`, "the only way an instruction writes a register": OVF, wrap, write (10_state.md R27). -/
def State.setReg (s : State) (r : Reg) (v : Int) : State :=
  { s with ovf := overflows r.width v }.writeReg r (wrap r.width v)

/-- `pc <- pc + n`: a non-jump adds its own length (10_state.md R22). -/
def State.advance (s : State) (n : Nat) : State := { s with pc := s.pc + n }

/-- The record the observer gets (44_system.md R154). -/
def State.snapshot (s : State) : Snapshot :=
  { a := s.a, b := s.b, d := s.regD, x := s.x, y := s.y
    eqF := s.eqF, neF := s.neF, ltF := s.ltF, gtF := s.gtF, ovf := s.ovf, carry := s.carry }

/-- Emit one event. -/
def State.emit (s : State) (e : Event) : State := { s with events := s.events ++ [e] }

/-- Report the outcome of a step to the host. -/
def State.report (s : State) (o : StepOutcome) : State := { s with outcome := some o }

/-- What a step does after an instruction's rule: after END nothing, for its rule has reported HaltEnd;
after any other, `notify(snapshot)` and the outcome Continue (44_system.md R152, R154). -/
def finishStep (i : Instr) (s : State) : State :=
  match i with
  | .endOp => s
  | _ => (s.emit (.notify s.snapshot)).report .continued

/-- The outcome an abnormal condition gives the host (60_exceptions.md R213). -/
def Fault.toOutcome : Fault → StepOutcome
  | .fetchOutOfRange a => .fetchFault a
  | .unknownOpcode p op => .haltUnknown p op
  | .storeOutOfRange a => .storeFault a

/-- The diagnostic of an abnormal condition (44_system.md R151; 60_exceptions.md R207, log 10). -/
def Fault.toDiag : Fault → Diag
  | .fetchOutOfRange a => .fetchOutOfRange a
  | .unknownOpcode p op => .unknownOpcode p op
  | .storeOutOfRange a => .storeOutOfRange a

/-- The end of a step by an abnormal condition, this hardware's only exception mechanism: nothing is saved, no handler
runs, the state stays as it was before the step, and the host gets the outcome and a diagnostic
(60_exceptions.md R200, R204, R207). There is no return from it (R208). -/
def State.endAbnormally (s : State) (f : Fault) : State :=
  (s.emit (.diag f.toDiag)).report f.toOutcome

end Sys2Proof.Machine
end

