-- ==== Sys2Proof/Machine/Compare.lean ====
section
/-! DEFINITION. The compare instructions (41_compare.md R111 to R115). -/

namespace Sys2Proof.Machine

/-- The shape of R111 to R115: `pc <- pc + n; compare(x[r], imm)`. -/
def compareImm (r : Reg) (n imm : Nat) (s : State) : Host.Outcome State Fault Refusal :=
  .next ((s.advance n).compare (s.readReg r) imm)

/-- CMPA (R111). -/
def execCmpa (imm : Byte) (s : State) : Host.Outcome State Fault Refusal := compareImm .a 2 imm.toNat s

/-- CMPB (R112). -/
def execCmpb (imm : Byte) (s : State) : Host.Outcome State Fault Refusal := compareImm .b 2 imm.toNat s

/-- CMPX (R113). -/
def execCmpx (imm : Half) (s : State) : Host.Outcome State Fault Refusal := compareImm .x 3 imm.toNat s

/-- CMPY (R114). -/
def execCmpy (imm : Half) (s : State) : Host.Outcome State Fault Refusal := compareImm .y 3 imm.toNat s

/-- CMPD (R115). -/
def execCmpd (imm : Half) (s : State) : Host.Outcome State Fault Refusal := compareImm .d 3 imm.toNat s

end Sys2Proof.Machine
end

