-- ==== Sys2Proof/Machine/IncDec.lean ====
section
/-! DEFINITION. The increment and decrement instructions (43_inc_dec.md R130 to R139), through setReg (log 16). -/

namespace Sys2Proof.Machine

/-- The shape of R130 to R134: `pc <- pc + 1; setReg(r, x[r] + 1)`. -/
def increment (r : Reg) (s : State) : Host.Outcome State Fault Refusal :=
  .next ((s.advance 1).setReg r (s.readReg r + 1))

/-- The shape of R135 to R139: `pc <- pc + 1; setReg(r, x[r] - 1)`, the argument an integer that may be -1. -/
def decrement (r : Reg) (s : State) : Host.Outcome State Fault Refusal :=
  .next ((s.advance 1).setReg r (s.readReg r - 1))

/-- INCA (R130). -/
def execInca (s : State) : Host.Outcome State Fault Refusal := increment .a s

/-- INCB (R131). -/
def execIncb (s : State) : Host.Outcome State Fault Refusal := increment .b s

/-- INCX (R132). -/
def execIncx (s : State) : Host.Outcome State Fault Refusal := increment .x s

/-- INCY (R133). -/
def execIncy (s : State) : Host.Outcome State Fault Refusal := increment .y s

/-- INCD (R134). -/
def execIncd (s : State) : Host.Outcome State Fault Refusal := increment .d s

/-- DECA (R135). -/
def execDeca (s : State) : Host.Outcome State Fault Refusal := decrement .a s

/-- DECB (R136). -/
def execDecb (s : State) : Host.Outcome State Fault Refusal := decrement .b s

/-- DECX (R137). -/
def execDecx (s : State) : Host.Outcome State Fault Refusal := decrement .x s

/-- DECY (R138). -/
def execDecy (s : State) : Host.Outcome State Fault Refusal := decrement .y s

/-- DECD (R139). -/
def execDecd (s : State) : Host.Outcome State Fault Refusal := decrement .d s

end Sys2Proof.Machine
end

