-- ==== Sys2Proof/Machine/Jump.lean ====
section
/-! DEFINITION. The jump instructions (42_jump.md R121 to R125). -/

namespace Sys2Proof.Machine

/-- The shape of R121 to R125: `pc <- start + off` when the jump is taken, else `pc <- pc + 3` (R120). -/
def jumpIf (taken : Bool) (off : Half) (s : State) : Host.Outcome State Fault Refusal :=
  .next { s with pc := if taken then s.jumpTarget off else s.pc + 3 }

/-- JMP (R121). -/
def execJmp (off : Half) (s : State) : Host.Outcome State Fault Refusal := jumpIf true off s

/-- JEQ tests EQ (R122). -/
def execJeq (off : Half) (s : State) : Host.Outcome State Fault Refusal := jumpIf s.eqF off s

/-- JNE tests NE itself, not the complement of EQ (R123). -/
def execJne (off : Half) (s : State) : Host.Outcome State Fault Refusal := jumpIf s.neF off s

/-- JGT tests GT (R124). -/
def execJgt (off : Half) (s : State) : Host.Outcome State Fault Refusal := jumpIf s.gtF off s

/-- JLT tests LT (R125). -/
def execJlt (off : Half) (s : State) : Host.Outcome State Fault Refusal := jumpIf s.ltF off s

end Sys2Proof.Machine
end

