-- ==== Sys2Proof/Machine/LoadStore.lean ====
section
/-! DEFINITION. The load-immediate instructions and the store (40_load_store.md R90 to R94). -/

namespace Sys2Proof.Machine

/-- The shape of R90 to R93: `pc <- pc + n; setReg(r, imm)`. -/
def loadImm (r : Reg) (n imm : Nat) (s : State) : Host.Outcome State Fault Refusal :=
  .next ((s.advance n).setReg r imm)

/-- LDA (R90). -/
def execLda (imm : Byte) (s : State) : Host.Outcome State Fault Refusal := loadImm .a 2 imm.toNat s

/-- LDB (R91). -/
def execLdb (imm : Byte) (s : State) : Host.Outcome State Fault Refusal := loadImm .b 2 imm.toNat s

/-- LDX (R92). -/
def execLdx (imm : Half) (s : State) : Host.Outcome State Fault Refusal := loadImm .x 3 imm.toNat s

/-- LDY (R93). -/
def execLdy (imm : Half) (s : State) : Host.Outcome State Fault Refusal := loadImm .y 3 imm.toNat s

/-- STA: `pc <- pc + 1; MemWrite(x[X], 1, x[A])` (R94). -/
def execSta (s : State) : Host.Outcome State Fault Refusal :=
  (s.advance 1).memWrite s.storeAddress s.a

end Sys2Proof.Machine
end

