-- ==== Sys2Proof/Machine/System.lean ====
section
/-! DEFINITION. END (44_system.md R150). -/

namespace Sys2Proof.Machine

/-- END: `pc <- pc + 1`, and the step ends with outcome `HaltEnd(pc)`, the new pc. It sets no latch: the state is an
ordinary next state (R150, R157, log 8). -/
def execEndOp (s : State) : Host.Outcome State Fault Refusal :=
  .next ((s.advance 1).report (.haltEnd (s.pc + 1)))

end Sys2Proof.Machine
end

