-- ==== Sys2Proof/Machine/Dispatch.lean ====
section
/-! DEFINITION. One arm per instruction, each a direct call of its meaning. -/

namespace Sys2Proof.Machine

def exec (i : Instr) (s : State) : Host.Outcome State Fault Refusal :=
  match i with
  | .lda v => Sys2Proof.Machine.execLda v s
  | .ldx v => Sys2Proof.Machine.execLdx v s
  | .sta => Sys2Proof.Machine.execSta s
  | .endOp => Sys2Proof.Machine.execEndOp s
  | .cmpa v => Sys2Proof.Machine.execCmpa v s
  | .cmpb v => Sys2Proof.Machine.execCmpb v s
  | .cmpx v => Sys2Proof.Machine.execCmpx v s
  | .cmpy v => Sys2Proof.Machine.execCmpy v s
  | .cmpd v => Sys2Proof.Machine.execCmpd v s
  | .jmp v => Sys2Proof.Machine.execJmp v s
  | .jeq v => Sys2Proof.Machine.execJeq v s
  | .jne v => Sys2Proof.Machine.execJne v s
  | .jgt v => Sys2Proof.Machine.execJgt v s
  | .jlt v => Sys2Proof.Machine.execJlt v s
  | .inca => Sys2Proof.Machine.execInca s
  | .incb => Sys2Proof.Machine.execIncb s
  | .incx => Sys2Proof.Machine.execIncx s
  | .incy => Sys2Proof.Machine.execIncy s
  | .incd => Sys2Proof.Machine.execIncd s
  | .deca => Sys2Proof.Machine.execDeca s
  | .decb => Sys2Proof.Machine.execDecb s
  | .decx => Sys2Proof.Machine.execDecx s
  | .decy => Sys2Proof.Machine.execDecy s
  | .decd => Sys2Proof.Machine.execDecd s
  | .ldb v => Sys2Proof.Machine.execLdb v s
  | .ldy v => Sys2Proof.Machine.execLdy v s

end Sys2Proof.Machine
end

