-- ==== Sys2Proof/Machine/Fetch.lean ====
section
/-! DEFINITION. Fetch and decode of the instruction at `pc` (30_encoding.md R74; 44_system.md R152). -/

namespace Sys2Proof.Machine

/-- Read the opcode byte at `pc`, look it up, and read the operand bytes its format asks for, lower address first.
The order of the tests is that of 60_exceptions.md R206: opcode out of range, unrecognised opcode, operand out of range. -/
def fetch (s : State) : Except Fault Instr :=
  match s.memRead s.pc with
  | .error f => .error f
  | .ok op =>
    match layoutOf op with
    | Option.none => .error (.unknownOpcode s.pc op)
    | some (.none i) => .ok i
    | some (.imm8 mk) => (s.memRead (s.pc + 1)).map mk
    | some (.imm16 mk) => (s.memRead2 (s.pc + 1)).map mk
    | some (.addr16 mk) => (s.memRead2 (s.pc + 1)).map mk

/-- Store `bytes` at `a`, `a + 1`, ..., leaving out any address the memory does not have. -/
def State.placeBytes (s : State) (a : Nat) : List Byte → State
  | [] => s
  | v :: vs =>
    State.placeBytes (if a < s.cfg.memSize then { s with mem := s.mem.set a v } else s) (a + 1) vs

end Sys2Proof.Machine
end

