-- ==== Sys2Proof/Machine/Step.lean ====
section
/-! DEFINITION. One step (44_system.md R152), and the placing of a word where step fetches. -/

namespace Sys2Proof.Machine

/-- "`step` executes exactly one instruction": fetch, the instruction's rule, then the observer and the outcome. A fault
carries no state: it leaves the state as before the step (44_system.md R152; 60_exceptions.md R204). -/
def step (s : State) : Host.Outcome State Fault Refusal :=
  match fetch s with
  | .error f => .fault f
  | .ok i =>
    match exec i s with
    | .next t => .next (finishStep i t)
    | .fault f => .fault f
    | .refused r => .refused r

/-- `s` with the opcode-table word's three bytes at `pc`, `pc + 1`, `pc + 2` (log 21). -/
def State.withFetchWord (s : State) (nbits w : Nat) : State :=
  s.placeBytes s.pc (tableBytes nbits w)

end Sys2Proof.Machine
end

