-- ==== Sys2Proof/Machine/Cells.lean ====
section
/-! DEFINITION. The display as far as the core is concerned: its cells, as the handler calls fill them (20_memory.md R63; 60_exceptions.md R210; log 28). -/

namespace Sys2Proof.Machine

/-- The address of cell `k`'s character code (20_memory.md R63). -/
def charAddress (d : Display) (k : Nat) : Nat := d.base + 2 * k

/-- The address of cell `k`'s display attribute (20_memory.md R63). -/
def attrAddress (d : Display) (k : Nat) : Nat := d.base + 2 * k + 1

/-- Cells are counted from 0, row-major, `width` cells per row (20_memory.md R63). -/
def cellIndex (d : Display) (row col : Nat) : Nat := row * d.width + col

/-- The byte the display was last handed for address `a`, events oldest first; none if it was handed none. -/
def displayByte : List Event → Nat → Option Byte
  | [], _ => none
  | .handler .display k v :: es, a =>
    match displayByte es a with
    | some w => some w
    | none => if k = a then some v else none
  | _ :: es, a => displayByte es a

/-- The character and attribute that the display has been handed for the cell at `row`, `col`. -/
def displayCell (s : State) (row col : Nat) : Option Byte × Option Byte :=
  (displayByte s.events (charAddress s.cfg.display (cellIndex s.cfg.display row col)),
   displayByte s.events (attrAddress s.cfg.display (cellIndex s.cfg.display row col)))

end Sys2Proof.Machine
end

