-- ==== Sys2Proof/Machine/Image.lean ====
section
/-! DEFINITION. The executable image and its hex text (30_encoding.md R76, R77). -/

namespace Sys2Proof.Machine

/-- The magic `0x42 0x33 0x32` (30_encoding.md R76, D1, log 17). -/
def magic : List Byte := [0x42, 0x33, 0x32]

/-- The header: magic, start address, entry address, big-endian (30_encoding.md R76). -/
def imageHeader (startAddr entryAddr : Half) : List Byte :=
  magic ++ [hiByte startAddr, loByte startAddr, hiByte entryAddr, loByte entryAddr]

/-- `magic ++ startAddr ++ entryAddr ++ code` (30_encoding.md R76). -/
def imageOf (startAddr entryAddr : Half) (code : List Byte) : List Byte :=
  imageHeader startAddr entryAddr ++ code

/-- The upper-case hexadecimal digit of `n < 16`. -/
def hexDigit (n : Nat) : Char :=
  if n < 10 then Char.ofNat (48 + n) else Char.ofNat (55 + n)

/-- Two digits per byte, most significant nibble first, no separators (30_encoding.md R77). -/
def toHexText : List Byte → List Char
  | [] => []
  | v :: vs => hexDigit (v.toNat / 16) :: hexDigit (v.toNat % 16) :: toHexText vs

/-- The value of a digit `0-9` or `A-F`; a lower-case letter is none (30_encoding.md R77, D14). -/
def upperHexValue (c : Char) : Option Nat :=
  if 48 ≤ c.toNat ∧ c.toNat ≤ 57 then some (c.toNat - 48)
  else if 65 ≤ c.toNat ∧ c.toNat ≤ 70 then some (c.toNat - 55)
  else none

/-- Decode hex text to bytes; text of odd length or with a character outside `0-9A-F` has none (30_encoding.md R77). -/
def fromHexText : List Char → Option (List Byte)
  | [] => some []
  | [_] => none
  | h :: l :: cs =>
    match upperHexValue h, upperHexValue l, fromHexText cs with
    | some a, some b, some vs => some (BitVec.ofNat 8 (a * 16 + b) :: vs)
    | _, _, _ => none

end Sys2Proof.Machine
end

