-- ==== Sys2Proof/Machine/Assembler.lean ====
section
/-! DEFINITION. The two-pass assembler, label_resolver_encoder (45_assembler.md R170 to R187). -/

namespace Sys2Proof.Machine

/-- Whitespace is space and tab (45_assembler.md R171, D25). -/
def isBlank (c : Char) : Bool := c == ' ' || c == '\t'

/-- A letter or `_` (45_assembler.md R172, D18). -/
def isIdentStart (c : Char) : Bool :=
  (decide (65 ≤ c.toNat) && decide (c.toNat ≤ 90)) || (decide (97 ≤ c.toNat) && decide (c.toNat ≤ 122)) || c == '_'

/-- A decimal digit. -/
def isDecimal (c : Char) : Bool := decide (48 ≤ c.toNat) && decide (c.toNat ≤ 57)

/-- A letter, a digit or `_` (45_assembler.md R172). -/
def isIdentChar (c : Char) : Bool := isIdentStart c || isDecimal c

/-- `[A-Za-z_][A-Za-z0-9_]*`, the whole of `cs` (45_assembler.md R172). -/
def isIdentifier : List Char → Bool
  | [] => false
  | c :: cs => isIdentStart c && cs.all isIdentChar

/-- A CR directly before the LF is dropped (45_assembler.md R171); the line is held backwards. -/
def dropCarriageReturn : List Char → List Char
  | '\r' :: cs => cs
  | cs => cs

/-- Cut at LF; `cur` is the line so far, backwards (45_assembler.md R171, log 30). -/
def splitLines : List Char → List Char → List (List Char)
  | cur, [] => [cur.reverse]
  | cur, c :: cs =>
    if c = '\n' then (dropCarriageReturn cur).reverse :: splitLines [] cs
    else splitLines (c :: cur) cs

/-- Split at runs of whitespace; `cur` is the token so far, backwards (45_assembler.md R173). -/
def splitTokens : List Char → List Char → List (List Char)
  | cur, [] => if cur.isEmpty then [] else [cur.reverse]
  | cur, c :: cs =>
    if isBlank c then
      if cur.isEmpty then splitTokens [] cs else cur.reverse :: splitTokens [] cs
    else splitTokens (c :: cur) cs

/-- The three classes of a line (45_assembler.md R171). -/
inductive Line where
  /-- A label line: the identifier, and the text after the colon. -/
  | label (name rest : List Char)
  /-- An instruction line: mnemonic and operand tokens. -/
  | instruction (mnemonic : List Char) (operands : List (List Char))
  /-- Anything else. -/
  | ignored
  deriving DecidableEq, Repr

/-- An identifier in column 0 immediately followed by `:`, and what follows it (45_assembler.md R171). -/
def labelOf (line : List Char) : Option (List Char × List Char) :=
  match line.dropWhile isIdentChar with
  | ':' :: rest =>
    if isIdentifier (line.takeWhile isIdentChar) then some (line.takeWhile isIdentChar, rest) else none
  | _ => none

/-- Begins with whitespace (45_assembler.md R171). -/
def beginsBlank : List Char → Bool
  | [] => false
  | c :: _ => isBlank c

/-- The class of a line, tested in the order label, instruction, ignored (45_assembler.md R171). -/
def classify (line : List Char) : Line :=
  match labelOf line with
  | some (name, rest) => .label name rest
  | none =>
    if beginsBlank line then
      match splitTokens [] line with
      | [] => .ignored
      | m :: ops => .instruction m ops
    else .ignored

/-- The mnemonics and their opcode bytes, in upper case (45_assembler.md R173; 30_encoding.md R73, D34). -/
def mnemonics : List (List Char × Byte) :=
  [("LDA".toList, 0x01), ("LDX".toList, 0x02), ("STA".toList, 0x03), ("END".toList, 0x04)]
  ++ [("CMPA".toList, 0x05), ("CMPB".toList, 0x06), ("CMPX".toList, 0x07), ("CMPY".toList, 0x08), ("CMPD".toList, 0x09)]
  ++ [("JMP".toList, 0x0A), ("JEQ".toList, 0x0B), ("JNE".toList, 0x0C), ("JGT".toList, 0x0D), ("JLT".toList, 0x0E)]
  ++ [("INCA".toList, 0x0F), ("INCB".toList, 0x10), ("INCX".toList, 0x11), ("INCY".toList, 0x12), ("INCD".toList, 0x13)]
  ++ [("DECA".toList, 0x14), ("DECB".toList, 0x15), ("DECX".toList, 0x16), ("DECY".toList, 0x17), ("DECD".toList, 0x18)]
  ++ [("LDB".toList, 0x22), ("LDY".toList, 0x23)]

/-- The opcode byte of a mnemonic, matched exactly; none if it is not one of the 26 (45_assembler.md R173, D19). -/
def opcodeOf (m : List Char) : Option Byte := mnemonics.lookup m

/-- The format of a mnemonic. -/
def mnemonicLayout (m : List Char) : Option Layout := (opcodeOf m).bind layoutOf

/-- The encoded width of a mnemonic, "on the mnemonic alone, never on the operand" (45_assembler.md R175). A token that is
no mnemonic counts 0, which no image can show (log 19). -/
def mnemonicWidth (m : List Char) : Nat :=
  match mnemonicLayout m with
  | some f => f.length
  | none => 0

/-- The value of a decimal digit (45_assembler.md R179). -/
def decimalValue (c : Char) : Option Nat :=
  if isDecimal c then some (c.toNat - 48) else none

/-- The value of a hexadecimal digit in either case (45_assembler.md R179, D37). -/
def hexValue (c : Char) : Option Nat :=
  if 97 ≤ c.toNat ∧ c.toNat ≤ 102 then some (c.toNat - 87) else upperHexValue c

/-- Read digits in a base, after `acc`; none on a character that is no digit. -/
def readDigits (base : Nat) (value : Char → Option Nat) : Nat → List Char → Option Nat
  | acc, [] => some acc
  | acc, c :: cs =>
    match value c with
    | some n => readDigits base value (acc * base + n) cs
    | none => none

/-- One or more digits in a base. -/
def readNumber (base : Nat) (value : Char → Option Nat) (cs : List Char) : Option Nat :=
  if cs.isEmpty then none else readDigits base value 0 cs

/-- An immediate literal, `#$` and hexadecimal digits or `#` and decimal digits (45_assembler.md R179). -/
def readImmediate : List Char → Option Nat
  | '#' :: '$' :: cs => readNumber 16 hexValue cs
  | '#' :: cs => readNumber 10 decimalValue cs
  | _ => none

/-- A label reference: `@` immediately followed by an identifier (45_assembler.md R180). -/
def readLabelRef : List Char → Option (List Char)
  | '@' :: cs => if isIdentifier cs then some cs else none
  | _ => none

/-- The bytes of one immediate operand of at most `limit - 1`, or the malformed-operand diagnostic (45_assembler.md R178, R179). -/
def encodeImmediate (line limit : Nat) (mk : Nat → Instr) (ops : List (List Char)) : Except AsmDiag (List Byte) :=
  match ops with
  | [t] =>
    match readImmediate t with
    | some n => if n < limit then .ok (encode (mk n)) else .error (.malformedOperand line)
    | none => .error (.malformedOperand line)
  | _ => .error (.malformedOperand line)

/-- The bytes of one label-reference operand, or the diagnostic (45_assembler.md R178, R180, R184).
A line gives at most one diagnostic, so with surplus tokens the labels are not looked up: the model's choice (log 19).
An offset that does not fit 16 bits is refused as `ProgramTooLong` (log 20). -/
def encodeLabelRef (table : List (List Char × Nat)) (line : Nat) (mk : Half → Instr) (ops : List (List Char)) :
    Except AsmDiag (List Byte) :=
  match ops with
  | [t] =>
    match readLabelRef t with
    | some name =>
      match table.lookup name with
      | some n => if n < 65536 then .ok (encode (mk (BitVec.ofNat 16 n))) else .error .programTooLong
      | none => .error (.undefinedLabel line name)
    | none => .error (.malformedOperand line)
  | _ => .error (.malformedOperand line)

/-- STA: "`STA ,X` emits the byte `0x03`, and `STA` with any other operand tokens emits the byte `0x00`" (45_assembler.md R181). -/
def encodeSta (ops : List (List Char)) : List Byte :=
  if ops = [",X".toList] then encode .sta else [0x00]

/-- The bytes of an instruction line in pass 2, or its diagnostic (45_assembler.md R178 to R184). -/
def encodeLine (table : List (List Char × Nat)) (line : Nat) (m : List Char) (ops : List (List Char)) :
    Except AsmDiag (List Byte) :=
  match mnemonicLayout m with
  | none => .error (.unknownMnemonic line m)
  | some (.none .sta) => .ok (encodeSta ops)
  | some (.none i) => if ops.isEmpty then .ok (encode i) else .error (.malformedOperand line)
  | some (.imm8 mk) => encodeImmediate line 256 (fun n => mk (BitVec.ofNat 8 n)) ops
  | some (.imm16 mk) => encodeImmediate line 65536 (fun n => mk (BitVec.ofNat 16 n)) ops
  | some (.addr16 mk) => encodeLabelRef table line mk ops

/-- What pass 1 holds: the label table, the byte cursor, the diagnostics (45_assembler.md R170, R174). -/
structure Pass1 where
  table : List (List Char × Nat)
  off : Nat
  diags : List AsmDiag
  deriving DecidableEq, Repr

/-- What pass 2 holds: the code so far, whose length is the byte cursor, and the diagnostics (45_assembler.md R176). -/
structure Pass2 where
  code : List Byte
  diags : List AsmDiag
  deriving DecidableEq, Repr

/-- Pass 1 at a label line: `table[identifier] <- off`, the cursor stays (45_assembler.md R172, R174; log 19). -/
def pass1Label (p : Pass1) (line : Nat) (name rest : List Char) : Pass1 :=
  { table := p.table ++ [(name, p.off)]
    off := p.off
    diags := p.diags
      ++ (if (p.table.lookup name).isSome then [.duplicateLabel line name] else [])
      ++ (if rest.all isBlank then [] else [.labelTrailingText line]) }

/-- Pass 1 at one line (45_assembler.md R174). -/
def pass1Line (p : Pass1) (l : Nat × Line) : Pass1 :=
  match l.2 with
  | .label name rest => pass1Label p l.1 name rest
  | .instruction m _ => { p with off := p.off + mnemonicWidth m }
  | .ignored => p

/-- Pass 2 at one line, with the complete label table (45_assembler.md R176). -/
def pass2Line (table : List (List Char × Nat)) (p : Pass2) (l : Nat × Line) : Pass2 :=
  match l.2 with
  | .instruction m ops =>
    match encodeLine table l.1 m ops with
    | .ok bytes => { p with code := p.code ++ bytes }
    | .error d => { p with diags := p.diags ++ [d] }
  | .label _ _ => p
  | .ignored => p

/-- Number the lines from `n` (log 19). -/
def numberFrom (n : Nat) : List Line → List (Nat × Line)
  | [] => []
  | l :: ls => (n, l) :: numberFrom (n + 1) ls

/-- The classified lines of a text, numbered from 1. -/
def sourceLines (text : List Char) : List (Nat × Line) :=
  numberFrom 1 ((splitLines [] text).map classify)

/-- Pass 1 over `lines` (45_assembler.md R174). -/
def pass1 (lines : List (Nat × Line)) : Pass1 :=
  lines.foldl pass1Line { table := [], off := 0, diags := [] }

/-- Pass 2 over `lines` (45_assembler.md R176). -/
def pass2 (table : List (List Char × Nat)) (lines : List (Nat × Line)) : Pass2 :=
  lines.foldl (pass2Line table) { code := [], diags := [] }

/-- `ProgramTooLong`: "the final `off` of pass 1 exceeds 65536" (45_assembler.md R184, D26). -/
def lengthDiags (off : Nat) : List AsmDiag :=
  if off > 65536 then [.programTooLong] else []

/-- Every diagnostic of a text: pass 1's, the length's, pass 2's (45_assembler.md R184, log 19). -/
def asmDiags (lines : List (Nat × Line)) : List AsmDiag :=
  (pass1 lines).diags ++ lengthDiags (pass1 lines).off ++ (pass2 (pass1 lines).table lines).diags

/-- What an assembly ends in (00_scope.md R10). -/
inductive AsmResult where
  | image (bytes : List Byte)
  | failed (diagnostics : List AsmDiag)
  deriving DecidableEq, Repr

/-- `assemble(text)`: the image with `ORIGIN` as load and entry address, or the diagnostics and no image
(45_assembler.md R170, R184, R186). -/
def assemble (origin : Half) (text : List Char) : AsmResult :=
  match asmDiags (sourceLines text) with
  | [] => .image (imageOf origin origin (pass2 (pass1 (sourceLines text)).table (sourceLines text)).code)
  | d :: ds => .failed (d :: ds)

end Sys2Proof.Machine
end

