-- ==== Sys2Proof/Machine/Commands.lean ====
section
/-! DEFINITION. The commands of 00_scope.md R11 around the step: init, load, step, run, assemble, and the boot order. -/

namespace Sys2Proof.Machine

/-- `init`: the table of 10_state.md R33. The parameters stay, no handler is called (70_reset_and_hazards.md R221);
the events already emitted stay emitted (log 24). -/
def initCommand (s : State) : State := { State.initial s.cfg with events := s.events }

/-- Why `load` refuses an image whose text or header or place the source describes nothing for
(70_reset_and_hazards.md R223, D14, log 14). -/
inductive LoadRefusal where
  | badHexText
  | truncatedHeader
  | imageOutOfRange
  deriving DecidableEq, Repr

/-- What `load` ends in (00_scope.md R10; 60_exceptions.md R213). -/
inductive LoadResult where
  | loaded
  | badMagic
  | refused (reason : LoadRefusal)
  deriving DecidableEq, Repr

/-- The effect of a successful load: "the copied memory range, `pc`, `start`", by direct array writes
(70_reset_and_hazards.md R222, D13, D15, log 13). -/
def State.loadCode (s : State) (startAddr entryAddr : Half) (code : List Byte) : State :=
  { s with
    mem := s.mem.copy startAddr.toNat code
    start := startAddr
    pc := entryAddr.toNat }

/-- Every code byte has a place in memory; no code byte needs none (70_reset_and_hazards.md R223). -/
def codeFits (memSize startAddr : Nat) (code : List Byte) : Bool :=
  code.isEmpty || decide (startAddr + code.length ≤ memSize)

/-- `load` after the magic: header length, then destination range, then the copy (70_reset_and_hazards.md R222, R223). -/
def loadBody (body : List Byte) (s : State) : LoadResult × State :=
  match body with
  | s1 :: s0 :: e1 :: e0 :: code =>
    if codeFits s.cfg.memSize (bigEndian s1 s0).toNat code then
      (.loaded, s.loadCode (bigEndian s1 s0) (bigEndian e1 e0) code)
    else (.refused .imageOutOfRange, s)
  | _ => (.refused .truncatedHeader, s)

/-- `load` of an image's bytes (70_reset_and_hazards.md R222, R223). -/
def loadCommand (image : List Byte) (s : State) : LoadResult × State :=
  if image.take 3 = magic then loadBody (image.drop 3) s
  else (.badMagic, s.emit (.diag .badMagic))

/-- `load` of an image carried as hex text: the text is tested first (70_reset_and_hazards.md R223). -/
def loadTextCommand (text : List Char) (s : State) : LoadResult × State :=
  match fromHexText text with
  | some image => loadCommand image s
  | none => (.refused .badHexText, s)

/-- The outcome a completed step has reported: HaltEnd if its rule did, else Continue. -/
def State.lastOutcome (s : State) : StepOutcome :=
  match s.outcome with
  | some o => o
  | none => .continued

/-- The `step` command: the outcome the host gets, and the state with what the step has emitted (44_system.md R152).
A single step ignores `stop_req` (R156). `none` stands for a refusal, which no instruction makes. -/
def stepCommand (s : State) : Option StepOutcome × State :=
  match step s with
  | .next t => (some t.lastOutcome, t)
  | .fault f => (some f.toOutcome, s.endAbnormally f)
  | .refused _ => (none, s)

/-- What the core meets at one step boundary of a run: the sample of `stop_req`, and whether a request first seen here
takes effect here or, `late`, at the next boundary: the spec fixes neither (44_system.md R156, D9, log 15). -/
structure Boundary where
  stopReq : Bool
  late : Bool
  deriving DecidableEq, Repr

/-- How a run ends (44_system.md R153, R155). -/
inductive RunOutcome where
  /-- The run has not ended after the boundaries given; `pending` says that a stop is due at the next one. -/
  | running (pending : Bool)
  /-- `Stopped(pc)`. -/
  | stopped (pc : Nat)
  /-- The first step outcome other than Continue. -/
  | ended (o : StepOutcome)
  /-- A step was refused: no instruction makes it. -/
  | refusedStep
  deriving DecidableEq, Repr

/-- Does the run end with Stopped at this boundary? (44_system.md R156) -/
def stopsHere (pending : Bool) (b : Boundary) : Bool := pending || (b.stopReq && !b.late)

/-- `run()`, one boundary after another; the list of boundaries is also the fuel (44_system.md R153, R156). -/
def runLoop : List Boundary → Bool → State → RunOutcome × State
  | [], pending, s => (.running pending, s)
  | b :: bs, pending, s =>
    if stopsHere pending b then (.stopped s.pc, s)
    else
      match stepCommand s with
      | (some .continued, t) => runLoop bs b.stopReq t
      | (some o, t) => (.ended o, t)
      | (none, t) => (.refusedStep, t)

/-- The `run` command: the first boundary is the call itself (44_system.md R153). -/
def runCommand (bs : List Boundary) (s : State) : RunOutcome × State := runLoop bs false s

/-- `k` boundaries at which no stop is asked for. -/
def undisturbed (k : Nat) : List Boundary := List.replicate k { stopReq := false, late := false }

/-- The `assemble` command: the result, and each diagnostic on the diagnostic channel (45_assembler.md R184). -/
def assembleCommand (text : List Char) (s : State) : AsmResult × State :=
  match assemble s.cfg.origin text with
  | .image bytes => (.image bytes, s)
  | .failed ds => (.failed ds, { s with events := s.events ++ ds.map fun d => .diag (.asm d) })

/-- Boot steps 2 to 4: init, assemble, hand the hex text to the loader (70_reset_and_hazards.md R224).
`none` when the assembly fails. -/
def boot (text : List Char) (s : State) : Option (LoadResult × State) :=
  match assembleCommand text (initCommand s) with
  | (.image bytes, t) => some (loadTextCommand (toHexText bytes) t)
  | (.failed _, _) => none

end Sys2Proof.Machine
end

