-- ==== Sys2Proof/Safety.lean ====
section
/-! DEFINITION. What claims are stated in: the invariants of the machine, and what a run without an abnormal end is. -/

namespace Sys2Proof.Machine

/-- The memory is canonical and has no entry at an address it does not have (10_state.md R29). -/
def State.memInv (s : State) : Prop := s.mem.wf = true ∧ s.mem.within s.cfg.memSize = true

/-- What every state reached by the commands satisfies: a legal configuration (00_scope.md R6), canonical memory,
`pc` in `0..131070` (10_state.md R22), CARRY 0 (10_state.md R26). -/
structure State.Inv (s : State) : Prop where
  cfgLegal : s.cfg.wellFormed = true
  memLegal : s.memInv
  pcBound : s.pc ≤ 131070
  carryZero : s.carry = false

/-- The values the comparison flags take: all zero before the first compare, then `{EQ}`, `{NE, LT}` or `{NE, GT}`
(10_state.md R24). -/
def State.flagsLegal (s : State) : Bool :=
  match s.eqF, s.neF, s.ltF, s.gtF with
  | false, false, false, false => true
  | true, false, false, false => true
  | false, true, true, false => true
  | false, true, false, true => true
  | _, _, _, _ => false

/-- `bytes` stand in memory at `pc`, `pc + 1`, ... (10_state.md R22, 30_encoding.md R70). -/
def State.bytesAtPc (s : State) (bytes : List Byte) : Prop :=
  ∀ k v, bytes[k]? = some v → s.readByte (s.pc + k) = some v

/-- The register an instruction writes, by the table of 10_state.md R28; a write of D writes A and B. -/
def destination : Instr → Option Reg
  | .lda _ | .inca | .deca => some .a
  | .ldb _ | .incb | .decb => some .b
  | .ldx _ | .incx | .decx => some .x
  | .ldy _ | .incy | .decy => some .y
  | .incd | .decd => some .d
  | .sta | .endOp => none
  | .cmpa _ | .cmpb _ | .cmpx _ | .cmpy _ | .cmpd _ => none
  | .jmp _ | .jeq _ | .jne _ | .jgt _ | .jlt _ => none

/-- The five compares, the only writers of EQ, NE, LT, GT (10_state.md R24, R28). -/
def isCompare : Instr → Bool
  | .cmpa _ | .cmpb _ | .cmpx _ | .cmpy _ | .cmpd _ => true
  | .lda _ | .ldb _ | .ldx _ | .ldy _ | .sta | .endOp => false
  | .jmp _ | .jeq _ | .jne _ | .jgt _ | .jlt _ => false
  | .inca | .incb | .incx | .incy | .incd => false
  | .deca | .decb | .decx | .decy | .decd => false

/-- The state without the model's output fields, which no rule reads. -/
def State.withoutOutputs (s : State) : State := { s with events := [], outcome := none }

/-- The step from `s` completes: no abnormal condition (60_exceptions.md R204). -/
def State.completes (s : State) : Bool :=
  match step s with
  | .next _ => true
  | .fault _ => false
  | .refused _ => false

/-- A run of `k` undisturbed steps from `s` ends normally, by END (70_reset_and_hazards.md R226). -/
def endsNormally (k : Nat) (s : State) : Prop :=
  ∃ pc t, runCommand (undisturbed k) s = (.ended (.haltEnd pc), t)

end Sys2Proof.Machine
end

