-- ==== Sys2Proof/Certificates/Slice0/Obligations.lean ====
section
/-! DEFINITION. The statements for the provers: each formalises rules of the spec, named in its comment. -/

open Sys2Proof Sys2Proof.Machine

/-! ## Encoding -/

/-- Words written out from 30_encoding.md R73 (95_test_vectors.md 2.1 to 2.7): at least one of every family and format.
The order of two operand bytes is decision D2, the opcode of each INC and DEC D34. -/
def Obligations.DecodesWordsOfTheSpec : Prop :=
  decode [0x01, 0x2A] = .ok (.lda 42, []) ∧
  decode [0x22, 0xFF] = .ok (.ldb 255, []) ∧
  decode [0x02, 0xA0, 0x00] = .ok (.ldx 40960, []) ∧
  decode [0x23, 0x12, 0x34] = .ok (.ldy 4660, []) ∧
  decode [0x03] = .ok (.sta, []) ∧
  decode [0x04] = .ok (.endOp, []) ∧
  decode [0x06, 0x10] = .ok (.cmpb 16, []) ∧
  decode [0x09, 0x01, 0x2C] = .ok (.cmpd 300, []) ∧
  decode [0x0D, 0x01, 0x02] = .ok (.jgt 258, []) ∧
  decode [0x13] = .ok (.incd, []) ∧
  decode [0x18] = .ok (.decd, [])

/-- Decode and encode agree, for every instruction and operand, whatever bytes follow (30_encoding.md R71 to R74;
the operand byte order is decision D2). -/
def Obligations.DecodeOfEncodeIsTheInstruction : Prop :=
  ∀ (i : Instr) (rest : List Byte), decode (encode i ++ rest) = .ok (i, rest)

/-- The other direction: the bytes decoded are the instruction's encoding, so no two encodings make one instruction
(30_encoding.md R71 to R74). -/
def Obligations.DecodedBytesAreTheEncoding : Prop :=
  ∀ (bytes : List Byte) (i : Instr) (rest : List Byte), decode bytes = .ok (i, rest) → bytes = encode i ++ rest

/-- The unrecognised opcode bytes are exactly `0x00`, `0x19 .. 0x21`, `0x24 .. 0xFF`, and "operand bytes are never checked":
with a recognised opcode byte any two bytes after it are enough (30_encoding.md R75). -/
def Obligations.UnrecognisedOpcodesAreExactlyTheListed : Prop :=
  ∀ (op b1 b2 : Byte) (rest : List Byte),
    ((op.toNat = 0 ∨ (0x19 ≤ op.toNat ∧ op.toNat ≤ 0x21) ∨ 0x24 ≤ op.toNat) →
      decode (op :: b1 :: b2 :: rest) = .error (.unknownOpcode op) ∧ decode [op] = .error (.unknownOpcode op)) ∧
    (¬ (op.toNat = 0 ∨ (0x19 ≤ op.toNat ∧ op.toNat ≤ 0x21) ∨ 0x24 ≤ op.toNat) →
      ∃ i rest', decode (op :: b1 :: b2 :: rest) = .ok (i, rest'))

/-- "A decoder therefore knows an instruction's length from its first byte alone": the byte's format gives it, it is 1, 2 or
3, and the encoding has it (30_encoding.md R70, R71, R74; 45_assembler.md R175). -/
def Obligations.FirstByteGivesTheLength : Prop :=
  ∀ (i : Instr) (op : Byte) (operands : List Byte), encode i = op :: operands →
    (∃ f, layoutOf op = some f ∧ f.length = i.length) ∧
    operands.length + 1 = i.length ∧ 1 ≤ i.length ∧ i.length ≤ 3

/-! ## Fetch and step -/

/-- A 2-byte read is two byte reads, the lower address first, high byte first; a byte outside the memory is a
FetchOutOfRange at its own address (20_memory.md R51, R53; the byte order is D2, the fault D5). -/
def Obligations.MemReadIsBigEndian : Prop :=
  ∀ (s : State) (a : Nat),
    (a < s.cfg.memSize → s.memRead a = .ok (s.mem.get a)) ∧
    (s.cfg.memSize ≤ a → s.memRead a = .error (.fetchOutOfRange a) ∧ s.memRead2 a = .error (.fetchOutOfRange a)) ∧
    (a + 1 < s.cfg.memSize → ∃ v, s.memRead2 a = .ok v ∧ v.toNat = (s.mem.get a).toNat * 256 + (s.mem.get (a + 1)).toNat) ∧
    (a + 1 = s.cfg.memSize → s.memRead2 a = .error (.fetchOutOfRange (a + 1)))

/-- A step runs the decoded instruction: when the bytes at `pc` decode to `i`, the step is `exec i`, then the end of a step,
which after END changes nothing and after any other instruction emits `notify(snapshot)` and reports Continue
(44_system.md R152). -/
def Obligations.StepRunsTheDecodedInstruction : Prop :=
  ∀ (s : State) (bytes : List Byte) (i : Instr), s.bytesAtPc bytes → decode bytes = .ok (i, []) →
    (∀ t, exec i s = .next t → i = .endOp → step s = .next t) ∧
    (∀ t, exec i s = .next t → i ≠ .endOp →
      step s = .next { t with events := t.events ++ [.notify t.snapshot], outcome := some .continued }) ∧
    (∀ f, exec i s = .fault f → step s = .fault f)

/-- Every way a step stops, in the order of 60_exceptions.md R206: the opcode byte out of range, an unrecognised opcode byte
(even where operand bytes would be out of range), the first operand byte out of range, a STA out of range.
The two faults are decisions D5 and D6, the reported pc D7. -/
def Obligations.StepStopsInTheOrderOfItsReads : Prop :=
  ∀ s : State,
    (s.cfg.memSize ≤ s.pc → step s = .fault (.fetchOutOfRange s.pc)) ∧
    (∀ op, s.readByte s.pc = some op → layoutOf op = none → step s = .fault (.unknownOpcode s.pc op)) ∧
    (∀ op f k, s.readByte s.pc = some op → layoutOf op = some f → k < f.length → s.pc + k = s.cfg.memSize →
      step s = .fault (.fetchOutOfRange (s.pc + k))) ∧
    (s.readByte s.pc = some 0x03 → s.cfg.memSize ≤ s.x.toNat → step s = .fault (.storeOutOfRange s.x.toNat))

/-- A step stops for no other reason, and is never refused (60_exceptions.md R201 to R203, R206). -/
def Obligations.StepStopsForNoOtherReason : Prop :=
  ∀ s : State,
    (∀ r, step s ≠ .refused r) ∧
    (∀ f, step s = .fault f →
      (∃ k, k < 3 ∧ f = .fetchOutOfRange (s.pc + k) ∧ s.cfg.memSize ≤ s.pc + k) ∨
      (∃ op, f = .unknownOpcode s.pc op ∧ s.readByte s.pc = some op ∧ layoutOf op = none) ∨
      (f = .storeOutOfRange s.x.toNat ∧ s.readByte s.pc = some 0x03 ∧ s.cfg.memSize ≤ s.x.toNat))

/-- "All run-time conditions are precise": after an abnormal end of the step command the state is the state before the step,
the host has the outcome and one diagnostic and no observer event (60_exceptions.md R204, R207, R213; for the two faults
decision D36; the diagnostic of a fault is read from R207, log 10). -/
def Obligations.AbnormalEndLeavesTheState : Prop :=
  ∀ (s : State) (f : Fault), step s = .fault f →
    stepCommand s = (some f.toOutcome,
      { s with events := s.events ++ [.diag f.toDiag], outcome := some f.toOutcome })

/-- An unrecognised opcode byte ends the step with `HaltUnknown(pc, op)`, `pc` at the byte, and a further step ends the same
way again (44_system.md R151, R157; the reported pc is decision D7, log 7, that a further step runs at all D8, log 8). -/
def Obligations.UnrecognisedOpcodeHaltsAndRepeats : Prop :=
  ∀ (s : State) (op : Byte), s.readByte s.pc = some op →
    (op.toNat = 0 ∨ (0x19 ≤ op.toNat ∧ op.toNat ≤ 0x21) ∨ 0x24 ≤ op.toNat) →
    (stepCommand s).1 = some (.haltUnknown s.pc op) ∧
    (stepCommand (stepCommand s).2).1 = some (.haltUnknown s.pc op) ∧
    (stepCommand s).2.withoutOutputs = s.withoutOutputs

/-! ## Registers and loads -/

/-- `D` is `A * 256 + B` in every state, has no storage of its own, and a write of it writes A with `w div 256` and B with
`w mod 256` of the wrapped value (10_state.md R21). -/
def Obligations.PairIsAViewOfItsHalves : Prop :=
  ∀ s : State,
    s.regD.toNat = s.a.toNat * 256 + s.b.toNat ∧
    s.readReg .d = s.a.toNat * 256 + s.b.toNat ∧ s.readReg .d ≤ 65535 ∧
    ∀ v : Int,
      ((s.setReg .d v).a.toNat : Int) = v % 65536 / 256 ∧
      ((s.setReg .d v).b.toNat : Int) = v % 65536 % 256 ∧
      ((s.setReg .d v).readReg .d : Int) = v % 65536

/-- `setReg` wraps modulo `2^W` and sets OVF exactly when the value exceeds `2^W - 1`; it writes the register it names and
nothing else, and it is the only way an instruction writes a register (10_state.md R27). -/
def Obligations.SetRegWrapsAndSetsOverflow : Prop :=
  (∀ (s : State) (r : Reg) (v : Int),
    (s.setReg r v).ovf = decide (v > 2 ^ r.width - 1) ∧
    ((s.setReg r v).readReg r : Int) = v % 2 ^ r.width ∧
    (r ≠ .a → r ≠ .d → (s.setReg r v).a = s.a) ∧
    (r ≠ .b → r ≠ .d → (s.setReg r v).b = s.b) ∧
    (r ≠ .x → (s.setReg r v).x = s.x) ∧
    (r ≠ .y → (s.setReg r v).y = s.y) ∧
    (r = .d → ((s.setReg r v).a.toNat : Int) = v % 65536 / 256 ∧ ((s.setReg r v).b.toNat : Int) = v % 65536 % 256) ∧
    { s.setReg r v with a := s.a, b := s.b, x := s.x, y := s.y, ovf := s.ovf } = s) ∧
  (∀ (i : Instr) (s t : State), exec i s = .next t →
    (t.a = s.a ∧ t.b = s.b ∧ t.x = s.x ∧ t.y = s.y ∧ t.ovf = s.ovf) ∨
    ∃ (r : Reg) (v : Int), t = { s.setReg r v with pc := s.pc + i.length })

/-- LDA, LDB, LDX, LDY put their immediate in their register, clear OVF and advance `pc` by their length; they complete in
every state (40_load_store.md R90 to R93). -/
def Obligations.LoadsSetTheirRegister : Prop :=
  ∀ s : State,
    (∀ imm, exec (.lda imm) s = .next { s with pc := s.pc + 2, a := imm, ovf := false }) ∧
    (∀ imm, exec (.ldb imm) s = .next { s with pc := s.pc + 2, b := imm, ovf := false }) ∧
    (∀ imm, exec (.ldx imm) s = .next { s with pc := s.pc + 3, x := imm, ovf := false }) ∧
    (∀ imm, exec (.ldy imm) s = .next { s with pc := s.pc + 3, y := imm, ovf := false })

/-! ## The store and the memory -/

/-- STA with `x[X] < MEM_SIZE` completes: the matching handlers, then the array, `pc + 1`, nothing else; with
`x[X] >= MEM_SIZE` it faults (40_load_store.md R94; 20_memory.md R52; the fault is decision D6). -/
def Obligations.StaWritesThroughX : Prop :=
  ∀ s : State,
    (s.x.toNat < s.cfg.memSize →
      exec .sta s = .next { s with
        pc := s.pc + 1
        events := s.events ++ handlerEvents s.cfg.periph s.x.toNat s.a
        mem := s.mem.set s.x.toNat s.a }) ∧
    (s.cfg.memSize ≤ s.x.toNat → exec .sta s = .fault (.storeOutOfRange s.x.toNat))

/-- Frame of STA: the byte at `x[X]` becomes A, every other address reads as before, and nothing else changes but `pc` and
the handler events (40_load_store.md R94). -/
def Obligations.StaChangesOneByteOnly : Prop :=
  ∀ s t : State, s.mem.wf = true → exec .sta s = .next t →
    t.readByte s.x.toNat = some s.a ∧
    (∀ a, a ≠ s.x.toNat → t.readByte a = s.readByte a) ∧
    (∃ es, t.events = s.events ++ es) ∧
    { t with pc := s.pc, mem := s.mem, events := s.events } = s

/-- Every mapped range that contains the address has its handler called exactly once, in registration order, with the
address and the byte, and no other has (20_memory.md R52, R61; both ends inclusive by D11, the address absolute by D12). -/
def Obligations.MappedRangesAreCalledInOrder : Prop :=
  ∀ (a : Nat) (v : Byte),
    handlerEvents [] a v = [] ∧
    (∀ (m : Mapping) (rest : List Mapping), m.lo ≤ (a : Int) → (a : Int) ≤ m.hi →
      handlerEvents (m :: rest) a v = .handler m.handler a v :: handlerEvents rest a v) ∧
    (∀ (m : Mapping) (rest : List Mapping), ¬ (m.lo ≤ (a : Int) ∧ (a : Int) ≤ m.hi) →
      handlerEvents (m :: rest) a v = handlerEvents rest a v)

/-- A read after a write gives the byte written there and the old byte everywhere else; the canonical form is kept, and two
canonical memories that read alike are equal (20_memory.md R58; 10_state.md R29). -/
def Obligations.MemoryReadsWhatWasWritten : Prop :=
  (∀ (m : Memory) (a b : Nat) (v : Byte), m.wf = true →
    (m.set a v).wf = true ∧ (m.set a v).get b = if b = a then v else m.get b) ∧
  (∀ m m' : Memory, m.wf = true → m'.wf = true → (∀ a, m.get a = m'.get a) → m = m')

/-- A store is seen by the very next fetch: a STA at `pc` whose address is `pc + 1` is followed by a step that fetches the
byte just stored (20_memory.md R60; 70_reset_and_hazards.md R228). -/
def Obligations.StoreIsSeenByTheNextFetch : Prop :=
  ∀ (s t : State) (i : Instr), s.mem.wf = true → s.readByte s.pc = some 0x03 → s.x.toNat = s.pc + 1 →
    encode i = [s.a] → step s = .next t → fetch t = .ok i

/-- Where the display is the mapped peripheral, a STA to the character or attribute address of one of its cells leaves the
display with that byte there (20_memory.md R62, R63; 60_exceptions.md R210; the view is log 28, the range's end D11).
It holds of every base and size, which the spec leaves OPEN (D30). -/
def Obligations.DisplayCellTakesTheStoredByte : Prop :=
  ∀ (s t : State) (k : Nat) (c : Config), c.periph = [] → s.cfg = c.mapDisplay →
    k < c.display.width * c.display.height →
    (s.x.toNat = charAddress s.cfg.display k ∨ s.x.toNat = attrAddress s.cfg.display k) →
    exec .sta s = .next t → displayByte t.events s.x.toNat = some s.a

/-! ## Compares and jumps -/

/-- The five compares: EQ, NE, LT, GT are rewritten by four tests of the register against the immediate as unsigned
integers; only `pc` changes beside them; exactly three results occur (41_compare.md R110, for the forms of R111 to R115). -/
def Obligations.ComparesRewriteAllFourFlags : Prop :=
  (∀ (s : State) (v imm : Nat),
    s.compare v imm = { s with
      eqF := decide (v = imm), neF := decide (v ≠ imm), ltF := decide (v < imm), gtF := decide (v > imm) } ∧
    (v = imm → s.compare v imm = { s with eqF := true, neF := false, ltF := false, gtF := false }) ∧
    (v < imm → s.compare v imm = { s with eqF := false, neF := true, ltF := true, gtF := false }) ∧
    (v > imm → s.compare v imm = { s with eqF := false, neF := true, ltF := false, gtF := true })) ∧
  (∀ s : State,
    (∀ imm, exec (.cmpa imm) s = .next ({ s with pc := s.pc + 2 }.compare s.a.toNat imm.toNat)) ∧
    (∀ imm, exec (.cmpb imm) s = .next ({ s with pc := s.pc + 2 }.compare s.b.toNat imm.toNat)) ∧
    (∀ imm, exec (.cmpx imm) s = .next ({ s with pc := s.pc + 3 }.compare s.x.toNat imm.toNat)) ∧
    (∀ imm, exec (.cmpy imm) s = .next ({ s with pc := s.pc + 3 }.compare s.y.toNat imm.toNat)) ∧
    (∀ imm, exec (.cmpd imm) s = .next ({ s with pc := s.pc + 3 }.compare (s.a.toNat * 256 + s.b.toNat) imm.toNat)))

/-- The five jumps write `pc` alone: `start + off`, reduced modulo nothing, when taken, else `pc + 3`; each conditional one
tests its own flag (42_jump.md R120 to R125; the unreduced sum is decision D35). -/
def Obligations.JumpsWriteThePcAlone : Prop :=
  ∀ (s : State) (off : Half),
    exec (.jmp off) s = .next { s with pc := s.start.toNat + off.toNat } ∧
    exec (.jeq off) s = .next { s with pc := if s.eqF then s.start.toNat + off.toNat else s.pc + 3 } ∧
    exec (.jne off) s = .next { s with pc := if s.neF then s.start.toNat + off.toNat else s.pc + 3 } ∧
    exec (.jgt off) s = .next { s with pc := if s.gtF then s.start.toNat + off.toNat else s.pc + 3 } ∧
    exec (.jlt off) s = .next { s with pc := if s.ltF then s.start.toNat + off.toNat else s.pc + 3 }

/-! ## Increments and decrements -/

/-- INCA, INCB, INCX, INCY, INCD add one modulo `2^W`, set OVF exactly on the wrap, and advance `pc` by one; INCB carries
nothing into A; INCD works on the pair (43_inc_dec.md R130 to R134, R141; that they go through setReg is derived there). -/
def Obligations.IncrementsAddOne : Prop :=
  ∀ s : State,
    exec .inca s = .next { s with pc := s.pc + 1, a := s.a + 1, ovf := decide (s.a = 0xFF) } ∧
    exec .incb s = .next { s with pc := s.pc + 1, b := s.b + 1, ovf := decide (s.b = 0xFF) } ∧
    exec .incx s = .next { s with pc := s.pc + 1, x := s.x + 1, ovf := decide (s.x = 0xFFFF) } ∧
    exec .incy s = .next { s with pc := s.pc + 1, y := s.y + 1, ovf := decide (s.y = 0xFFFF) } ∧
    exec .incd s = .next { s with
      pc := s.pc + 1, a := hiByte (s.regD + 1), b := loByte (s.regD + 1), ovf := decide (s.regD = 0xFFFF) }

/-- DECA, DECB, DECX, DECY, DECD subtract one modulo `2^W`, clear OVF always, and advance `pc` by one; DECB borrows nothing
from A; DECD works on the pair (43_inc_dec.md R135 to R139, R141; that they go through setReg is derived there). -/
def Obligations.DecrementsSubtractOne : Prop :=
  ∀ s : State,
    exec .deca s = .next { s with pc := s.pc + 1, a := s.a - 1, ovf := false } ∧
    exec .decb s = .next { s with pc := s.pc + 1, b := s.b - 1, ovf := false } ∧
    exec .decx s = .next { s with pc := s.pc + 1, x := s.x - 1, ovf := false } ∧
    exec .decy s = .next { s with pc := s.pc + 1, y := s.y - 1, ovf := false } ∧
    exec .decd s = .next { s with
      pc := s.pc + 1, a := hiByte (s.regD - 1), b := loByte (s.regD - 1), ovf := false }

/-- DEC undoes INC and INC undoes DEC, on every register and on the pair: the two differ from the state before by OVF and `pc`
alone (43_inc_dec.md R140, R141). -/
def Obligations.DecrementUndoesIncrement : Prop :=
  ∀ (i d : Instr) (s t u : State),
    (i, d) ∈ [(.inca, .deca), (.incb, .decb), (.incx, .decx), (.incy, .decy), (.incd, .decd)] →
    (exec i s = .next t → exec d t = .next u → { u with pc := s.pc, ovf := s.ovf } = s) ∧
    (exec d s = .next t → exec i t = .next u → { u with pc := s.pc, ovf := s.ovf } = s)

/-! ## END, frames, whole-machine rules -/

/-- END advances `pc` by one, reports `HaltEnd` with the new `pc`, changes nothing else, notifies no observer, and sets no
latch: the next step runs whatever is at the new `pc` (44_system.md R150; that there is no latch is decision D8, the fault
past the end of memory D5). -/
def Obligations.EndHaltsPastItsByte : Prop :=
  encode .endOp = [0x04] ∧
  (∀ s : State, exec .endOp s = .next { s with pc := s.pc + 1, outcome := some (.haltEnd (s.pc + 1)) }) ∧
  (∀ s : State, s.readByte s.pc = some 0x04 →
    stepCommand s = (some (.haltEnd (s.pc + 1)), { s with pc := s.pc + 1, outcome := some (.haltEnd (s.pc + 1)) })) ∧
  (∀ s : State, s.cfg.memSize ≤ s.pc → step s = .fault (.fetchOutOfRange s.pc)) ∧
  (∀ (s t : State) (i : Instr), s.readByte s.pc = some 0x04 → step s = .next t → t.bytesAtPc (encode i) →
    fetch t = .ok i)

/-- The table of 10_state.md R28, as a frame over every instruction: a register changes only where the table says the
instruction writes it, OVF only with a register, the comparison flags only by a compare, memory and handler events only by
STA, the reported outcome only by END, and CARRY, `start` and the configuration never (R23, R24, R25, R26, R30). -/
def Obligations.InstructionsWriteOnlyTheirRow : Prop :=
  ∀ (i : Instr) (s t : State), exec i s = .next t →
    (destination i ≠ some .a → destination i ≠ some .d → t.a = s.a) ∧
    (destination i ≠ some .b → destination i ≠ some .d → t.b = s.b) ∧
    (destination i ≠ some .x → t.x = s.x) ∧
    (destination i ≠ some .y → t.y = s.y) ∧
    (destination i = none → t.ovf = s.ovf) ∧
    (isCompare i = false → t.eqF = s.eqF ∧ t.neF = s.neF ∧ t.ltF = s.ltF ∧ t.gtF = s.gtF) ∧
    t.carry = s.carry ∧ t.start = s.start ∧ t.cfg = s.cfg ∧
    (i ≠ .sta → t.events = s.events ∧ ∀ a, t.readByte a = s.readByte a) ∧
    (i ≠ .endOp → t.outcome = s.outcome)

/-- "The carry flag `CARRY` is one bit that is always 0": no instruction reads or writes it, INCB does not carry into A, init
leaves it 0, and step and load keep it, so it shows 0 in every snapshot (10_state.md R26). -/
def Obligations.CarryIsNeitherReadNorWritten : Prop :=
  (∀ (i : Instr) (s t : State) (c : Bool), exec i s = .next t →
    exec i { s with carry := c } = .next { t with carry := c }) ∧
  (∀ s t : State, exec .incb s = .next t → t.a = s.a) ∧
  (∀ s : State, (initCommand s).carry = false) ∧
  (∀ (s : State) (text : List Char), (loadTextCommand text s).2.carry = s.carry) ∧
  (∀ s t : State, s.carry = false → step s = .next t → t.carry = false ∧ t.snapshot.carry = false)

/-- OVF is written by every setReg, to 1 exactly when the value handed to it exceeds what the register can hold, so never for a
value below zero; loads and decrements write 0, an increment writes 1 at the register's largest value only; an instruction
with no register to write leaves it, and none reads it (10_state.md R25). That INC and DEC write it is read from the source
by the spec (43_inc_dec.md R140, R141, log 16); that a load leaves it is decision D15 (70_reset_and_hazards.md R222, log 13). -/
def Obligations.OverflowIsWrittenBySetRegAlone : Prop :=
  (∀ (s : State) (r : Reg) (v : Int),
    (s.setReg r v).ovf = decide (v > 2 ^ r.width - 1) ∧ (v < 0 → (s.setReg r v).ovf = false)) ∧
  (∀ (i : Instr) (s t : State) (c : Bool), exec i s = .next t →
    exec i { s with ovf := c } = .next { t with ovf := if destination i = none then c else t.ovf }) ∧
  (∀ (s t : State) (imm : Byte) (v : Half),
    (exec (.lda imm) s = .next t ∨ exec (.ldb imm) s = .next t ∨ exec (.ldx v) s = .next t ∨ exec (.ldy v) s = .next t) →
    t.ovf = false) ∧
  (∀ (i d : Instr) (r : Reg) (s t : State),
    (i, d, r) ∈ [(.inca, .deca, .a), (.incb, .decb, .b), (.incx, .decx, .x), (.incy, .decy, .y), (.incd, .decd, .d)] →
    (exec i s = .next t → t.ovf = decide (s.readReg r = 2 ^ r.width - 1)) ∧ (exec d s = .next t → t.ovf = false)) ∧
  (∀ (s : State) (text : List Char), (loadTextCommand text s).2.ovf = s.ovf)

/-- The observer is notified once, last, with the state after the instruction, after every step but END's; before it stand
only the step's own handler events; after END there is no event at all (44_system.md R152, R154; the snapshot's fields are
decision D16). -/
def Obligations.ObserverIsNotifiedAfterEveryContinue : Prop :=
  ∀ s t : State, step s = .next t →
    (t.outcome = some (.haltEnd t.pc) ∧ t.events = s.events ∧ s.readByte s.pc = some 0x04) ∨
    (t.outcome = some .continued ∧ s.readByte s.pc ≠ some 0x04 ∧
      ∃ hs, t.events = s.events ++ hs ++ [.notify t.snapshot] ∧
        ∀ e ∈ hs, ∃ h a v, e = .handler h a v)

/-- What the core has told the host never comes back: two states that differ only in the events emitted and in the outcome
last reported step alike (10_state.md R32; 20_memory.md R62; 44_system.md R154, R157; that no halt latches is decision D8,
log 8; that events and outcome are fields of the state is the model's own, logs 8, 9). -/
def Obligations.OutputsNeverInfluenceAStep : Prop :=
  ∀ s s' : State, s.withoutOutputs = s'.withoutOutputs →
    (∀ t, step s = .next t → ∃ t', step s' = .next t' ∧ t.withoutOutputs = t'.withoutOutputs) ∧
    (∀ f, step s = .fault f → step s' = .fault f)

/-! ## Invariants -/

/-- The state after `init` meets the invariant and has legal comparison flags (10_state.md R33; the zeros of registers, flags
and `pc` are decisions D3, D4, logs 2, 3). -/
def Obligations.ResetMeetsTheInvariant : Prop :=
  State.reset.Inv ∧ State.reset.flagsLegal = true

/-- Every step keeps: a legal configuration, canonical memory inside `MEM_SIZE`, `pc` in `0..131070`, CARRY 0
(10_state.md R22, R26, R29, R30; 00_scope.md R6; the range of pc is decision D5). -/
def Obligations.StepKeepsTheInvariant : Prop :=
  ∀ s t : State, s.Inv → step s = .next t → t.Inv

/-- The comparison flags stay one of: all zero, `{EQ}`, `{NE, LT}`, `{NE, GT}`; and after a compare they are not all zero
(10_state.md R24). -/
def Obligations.ComparisonFlagsStayLegal : Prop :=
  (∀ s t : State, s.flagsLegal = true → step s = .next t → t.flagsLegal = true) ∧
  (∀ (i : Instr) (s t : State), isCompare i = true → exec i s = .next t →
    t.flagsLegal = true ∧ t.eqF = !t.neF ∧ t.eqF = (!t.ltF && !t.gtF))

/-- Every command keeps the invariant: init, load, step, run (10_state.md R34; 70_reset_and_hazards.md R221 to R223). The range
of pc is decision D5, its reset value D4, what load leaves alone D14 and D15, what init keeps D17 (logs 3, 5, 13, 14, 24). -/
def Obligations.CommandsKeepTheInvariant : Prop :=
  ∀ s : State, s.Inv →
    (initCommand s).Inv ∧
    (∀ text, (loadTextCommand text s).2.Inv) ∧
    (stepCommand s).2.Inv ∧
    (∀ bs, (runCommand bs s).2.Inv)

/-! ## Commands -/

/-- The table of 10_state.md R33: after `init` every memory byte, register and flag is 0, `pc` and `start` are 0, and the
configuration is kept (70_reset_and_hazards.md R221). The zeros of the registers, the flags, `pc` and `start` are the spec's
decisions D3 and D4 (logs 2, 3). That `init` keeps the configuration, calls no handler, and neither emits nor drops an event
is decision D17 and the model's choice (log 24). -/
def Obligations.InitClearsTheMachine : Prop :=
  State.reset.withoutOutputs = (initCommand State.reset).withoutOutputs ∧
  ∀ s : State,
    let t := initCommand s
    t.a = 0 ∧ t.b = 0 ∧ t.x = 0 ∧ t.y = 0 ∧ t.regD = 0 ∧ t.pc = 0 ∧ t.start = 0 ∧
    t.eqF = false ∧ t.neF = false ∧ t.ltF = false ∧ t.gtF = false ∧ t.ovf = false ∧ t.carry = false ∧
    t.cfg = s.cfg ∧ t.events = s.events ∧
    ∀ a, a < s.cfg.memSize → t.readByte a = some 0

/-- A successful load copies the code to the start address, sets `start` and `pc`, calls no handler, and changes nothing else
(70_reset_and_hazards.md R222; no handler by D13, nothing else by D15, log 13; the magic by D1, log 17). -/
def Obligations.LoadPlacesTheCode : Prop :=
  ∀ (s : State) (startAddr entryAddr : Half) (code : List Byte), s.mem.wf = true →
    (code = [] ∨ startAddr.toNat + code.length ≤ s.cfg.memSize) →
    ∃ t, loadCommand (imageOf startAddr entryAddr code) s = (.loaded, t) ∧
      t.start = startAddr ∧ t.pc = entryAddr.toNat ∧
      (∀ k v, code[k]? = some v → t.readByte (startAddr.toNat + k) = some v) ∧
      (∀ a, (a < startAddr.toNat ∨ startAddr.toNat + code.length ≤ a) → t.readByte a = s.readByte a) ∧
      { t with mem := s.mem, start := s.start, pc := s.pc } = s

/-- Every image text that does not load leaves the state as it was, and the reason is the first failing test in the order hex
text, magic, header length, destination range (70_reset_and_hazards.md R223; the refusals are decision D14). That a refusal
emits no diagnostic is the model's choice (log 14); the bytes 42 33 32 of the magic are decision D1 (log 17). -/
def Obligations.FailedLoadChangesNothing : Prop :=
  ∀ (text : List Char) (s : State),
    ((loadTextCommand text s).1 ≠ .loaded → (loadTextCommand text s).2.withoutOutputs = s.withoutOutputs) ∧
    (fromHexText text = none → loadTextCommand text s = (.refused .badHexText, s)) ∧
    (∀ image, fromHexText text = some image → image.take 3 ≠ [0x42, 0x33, 0x32] →
      loadTextCommand text s = (.badMagic, { s with events := s.events ++ [.diag .badMagic] })) ∧
    (∀ image, fromHexText text = some image → image.take 3 = [0x42, 0x33, 0x32] → image.length < 7 →
      loadTextCommand text s = (.refused .truncatedHeader, s)) ∧
    (∀ (st e : Half) (code : List Byte), fromHexText text = some (imageOf st e code) → code ≠ [] →
      s.cfg.memSize < st.toNat + code.length → loadTextCommand text s = (.refused .imageOutOfRange, s))

/-- The hex text of an image decodes to its bytes, has two characters a byte, each in `0-9A-F` (30_encoding.md R77). -/
def Obligations.HexTextCarriesTheBytes : Prop :=
  ∀ bytes : List Byte,
    fromHexText (toHexText bytes) = some bytes ∧ (toHexText bytes).length = 2 * bytes.length ∧
    ∀ c ∈ toHexText bytes, c ∈ "0123456789ABCDEF".toList

/-- The stop bound: in a run that has done `n` steps when `stop_req` is first seen as 1, the run ends with `Stopped(pc)` at
that boundary or, if not, after exactly one more step, unless that step ends the run itself; both schedules are admitted
(44_system.md R153, R156; 90_conflicts.md C8; the bound is decision D9). -/
def Obligations.StopTakesEffectWithinOneStep : Prop :=
  ∀ (n : Nat) (s t : State) (b c : Boundary) (bs : List Boundary),
    runCommand (undisturbed n) s = (.running false, t) → b.stopReq = true →
    (b.late = false → runCommand (undisturbed n ++ b :: c :: bs) s = (.stopped t.pc, t)) ∧
    (b.late = true → ∀ u, stepCommand t = (some .continued, u) →
      runCommand (undisturbed n ++ b :: c :: bs) s = (.stopped u.pc, u)) ∧
    (b.late = true → ∀ o u, o ≠ .continued → stepCommand t = (some o, u) →
      runCommand (undisturbed n ++ b :: c :: bs) s = (.ended o, u))

/-- A run with no stop request never ends in Stopped; while its steps continue it goes on, and it ends with the first outcome
other than Continue and the state that step left (44_system.md R153, R157; 70_reset_and_hazards.md R226, R230; that the first
such outcome is the end of a run is decision D8, log 8). -/
def Obligations.RunRepeatsStepsUntilAHalt : Prop :=
  (∀ (k : Nat) (s : State) (pc : Nat), (runCommand (undisturbed k) s).1 ≠ .stopped pc) ∧
  (∀ (n : Nat) (s t : State), runCommand (undisturbed n) s = (.running false, t) →
    (∀ u, stepCommand t = (some .continued, u) → runCommand (undisturbed (n + 1)) s = (.running false, u)) ∧
    (∀ o u k, o ≠ .continued → stepCommand t = (some o, u) →
      runCommand (undisturbed (n + 1 + k)) s = (.ended o, u)))

/-! ## The assembler -/

/-- The invariant of the two passes: when the assembly succeeds, pass 2 emits each instruction's first byte at the offset
pass 1 had there, every label is bound to the offset pass 2 reaches at it, and the code's length is the final offset of
pass 1 (45_assembler.md R177). -/
def Obligations.PassesAgreeOnEveryOffset : Prop :=
  ∀ lines : List (Nat × Line), asmDiags lines = [] →
    (pass2 (pass1 lines).table lines).code.length = (pass1 lines).off ∧
    (∀ (before after : List (Nat × Line)) (l : Nat × Line), lines = before ++ l :: after →
      (pass2 (pass1 lines).table before).code.length = (pass1 before).off) ∧
    (∀ (before after : List (Nat × Line)) (n : Nat) (name rest : List Char),
      lines = before ++ (n, .label name rest) :: after →
      (pass1 lines).table.lookup name = some (pass2 (pass1 lines).table before).code.length)

/-- A successful assembly gives the header with ORIGIN twice and then pass 2's code, at most 65536 bytes of it: each
instruction line's bytes stand in the code at the offset pass 1 had at the line, after those of the lines before it. A text
without an instruction line gives the header alone. The assembly succeeds exactly where there is no diagnostic, and otherwise
answers them all (45_assembler.md R176, R184, R186; the length limit is D26, ORIGIN D33, the magic D1; logs 17, 18, 19, 20). -/
def Obligations.AssembledImageIsHeaderAndCode : Prop :=
  ∀ (origin : Half) (text : List Char),
    let lines := sourceLines text
    let table := (pass1 lines).table
    let code := (pass2 table lines).code
    (∀ image, assemble origin text = .image image →
      image = [0x42, 0x33, 0x32, hiByte origin, loByte origin, hiByte origin, loByte origin] ++ code ∧
      code.length ≤ 65536 ∧
      (∀ (before after : List (Nat × Line)) (n : Nat) (m : List Char) (ops : List (List Char)),
        lines = before ++ (n, .instruction m ops) :: after →
        ∃ bytes rest, encodeLine table n m ops = .ok bytes ∧
          code = (pass2 table before).code ++ bytes ++ rest ∧
          (pass2 table before).code.length = (pass1 before).off) ∧
      ((∀ n m ops, (n, Line.instruction m ops) ∉ lines) → code = [])) ∧
    ((∃ image, assemble origin text = .image image) ↔ asmDiags lines = []) ∧
    (∀ ds, assemble origin text = .failed ds → ds = asmDiags lines)

/-- The table of bytes of an instruction line, for every one of the 26 mnemonics. With an immediate: a literal that fits the
width gives the opcode byte and the value, high byte first; one that does not fit, a token that is no literal, and any number
of tokens but one are malformed. With a label: the offset of a declared one, high byte first; an undeclared one is undefined;
a token that is no label reference, and any number of tokens but one, are malformed. STA is `03` for the one token `,X` and
`00` for anything else. The others are their opcode byte alone, and malformed with any token. Any other first token is an
unknown mnemonic (45_assembler.md R178 to R184; the range test of immediates is D37, surplus tokens D21, STA without a token
D31, the unknown mnemonic D19 and D20, log 18; the byte order is D2, log 12; the middle INC and DEC D34, log 16). That a jump
with surplus tokens is malformed whatever its labels is the model's choice (log 19), and so is the failure of a reference to
an offset that does not fit 16 bits (log 20). -/
def Obligations.InstructionLinesEncodeAsTheTable : Prop :=
  ∀ (table : List (List Char × Nat)) (line : Nat) (m tok name : List Char) (ops : List (List Char)) (op : Byte) (n : Nat),
    ((m, op) ∈ [("LDA".toList, 0x01), ("LDB".toList, 0x22), ("CMPA".toList, 0x05), ("CMPB".toList, 0x06)] →
      (readImmediate tok = some n → n < 256 → encodeLine table line m [tok] = .ok [op, BitVec.ofNat 8 n]) ∧
      (readImmediate tok = some n → 256 ≤ n → encodeLine table line m [tok] = .error (.malformedOperand line)) ∧
      (readImmediate tok = none → encodeLine table line m [tok] = .error (.malformedOperand line)) ∧
      (ops.length ≠ 1 → encodeLine table line m ops = .error (.malformedOperand line))) ∧
    ((m, op) ∈ [("LDX".toList, 0x02), ("LDY".toList, 0x23), ("CMPX".toList, 0x07), ("CMPY".toList, 0x08),
        ("CMPD".toList, 0x09)] →
      (readImmediate tok = some n → n < 65536 →
        encodeLine table line m [tok] = .ok [op, BitVec.ofNat 8 (n / 256), BitVec.ofNat 8 (n % 256)]) ∧
      (readImmediate tok = some n → 65536 ≤ n → encodeLine table line m [tok] = .error (.malformedOperand line)) ∧
      (readImmediate tok = none → encodeLine table line m [tok] = .error (.malformedOperand line)) ∧
      (ops.length ≠ 1 → encodeLine table line m ops = .error (.malformedOperand line))) ∧
    ((m, op) ∈ [("JMP".toList, 0x0A), ("JEQ".toList, 0x0B), ("JNE".toList, 0x0C), ("JGT".toList, 0x0D),
        ("JLT".toList, 0x0E)] →
      (isIdentifier name = true → table.lookup name = some n → n < 65536 →
        encodeLine table line m ['@' :: name] = .ok [op, BitVec.ofNat 8 (n / 256), BitVec.ofNat 8 (n % 256)]) ∧
      (isIdentifier name = true → table.lookup name = some n → 65536 ≤ n →
        encodeLine table line m ['@' :: name] = .error .programTooLong) ∧
      (isIdentifier name = true → table.lookup name = none →
        encodeLine table line m ['@' :: name] = .error (.undefinedLabel line name)) ∧
      ((∀ l, isIdentifier l = true → tok ≠ '@' :: l) →
        encodeLine table line m [tok] = .error (.malformedOperand line)) ∧
      (ops.length ≠ 1 → encodeLine table line m ops = .error (.malformedOperand line))) ∧
    encodeLine table line "STA".toList [",X".toList] = .ok [0x03] ∧
    (ops ≠ [",X".toList] → encodeLine table line "STA".toList ops = .ok [0x00]) ∧
    ((m, op) ∈ [("END".toList, 0x04), ("INCA".toList, 0x0F), ("INCB".toList, 0x10), ("INCX".toList, 0x11),
        ("INCY".toList, 0x12), ("INCD".toList, 0x13), ("DECA".toList, 0x14), ("DECB".toList, 0x15),
        ("DECX".toList, 0x16), ("DECY".toList, 0x17), ("DECD".toList, 0x18)] →
      encodeLine table line m [] = .ok [op] ∧
      (ops ≠ [] → encodeLine table line m ops = .error (.malformedOperand line))) ∧
    (m ∉ ["LDA", "LDB", "LDX", "LDY", "STA", "END", "CMPA", "CMPB", "CMPX", "CMPY", "CMPD", "JMP", "JEQ", "JNE", "JGT", "JLT",
        "INCA", "INCB", "INCX", "INCY", "INCD", "DECA", "DECB", "DECX", "DECY", "DECD"].map String.toList →
      encodeLine table line m ops = .error (.unknownMnemonic line m))

/-- From source text to the first fetch: init, assemble and load of a text that assembles and fits leave the machine with the
emitted code in memory from ORIGIN on, `pc` and `start` at ORIGIN, every other address reading as after `init`, and everything
else as `init` left it (70_reset_and_hazards.md R222, R224; 45_assembler.md R186; 30_encoding.md R77; decisions D1, D3, D4, D13,
D15, D17, D33, logs 2, 3, 13, 17, 18, 24). -/
def Obligations.BootPlacesTheAssembledProgram : Prop :=
  ∀ (s : State) (text : List Char) (code : List Byte),
    assemble s.cfg.origin text = .image (imageOf s.cfg.origin s.cfg.origin code) →
    (code = [] ∨ s.cfg.origin.toNat + code.length ≤ s.cfg.memSize) →
    ∃ t, boot text s = some (.loaded, t) ∧
      t.pc = s.cfg.origin.toNat ∧ t.start = s.cfg.origin ∧
      (∀ k v, code[k]? = some v → t.readByte (s.cfg.origin.toNat + k) = some v) ∧
      (∀ a, (a < s.cfg.origin.toNat ∨ s.cfg.origin.toNat + code.length ≤ a) →
        t.readByte a = (initCommand s).readByte a) ∧
      { t with mem := [], pc := 0, start := 0 } = initCommand s
end

