-- ==== Sys2Proof/Laws/Decode.lean ====
section
/-! SUPPORT. The byte-order helpers are inverse to each other. -/

namespace Sys2Proof

theorem bigEndian_toNat (h l : Byte) : (bigEndian h l).toNat = h.toNat * 256 + l.toNat := by
  have h1 := h.isLt
  have h2 := l.isLt
  rw [bigEndian, BitVec.toNat_ofNat, Nat.mod_eq_of_lt (by omega)]

theorem hiByte_toNat (v : Half) : (hiByte v).toNat = v.toNat / 256 := by
  have h1 := v.isLt
  rw [hiByte, BitVec.toNat_ofNat, Nat.mod_eq_of_lt (by omega)]

theorem loByte_toNat (v : Half) : (loByte v).toNat = v.toNat % 256 := by
  rw [loByte, BitVec.toNat_ofNat, Nat.mod_eq_of_lt (by omega)]

@[simp] theorem bigEndian_hiByte_loByte (v : Half) : bigEndian (hiByte v) (loByte v) = v := by
  apply BitVec.eq_of_toNat_eq
  rw [bigEndian_toNat, hiByte_toNat, loByte_toNat]
  omega

@[simp] theorem hiByte_bigEndian (h l : Byte) : hiByte (bigEndian h l) = h := by
  have h1 := l.isLt
  apply BitVec.eq_of_toNat_eq
  rw [hiByte_toNat, bigEndian_toNat]
  omega

@[simp] theorem loByte_bigEndian (h l : Byte) : loByte (bigEndian h l) = l := by
  have h1 := l.isLt
  apply BitVec.eq_of_toNat_eq
  rw [loByte_toNat, bigEndian_toNat]
  omega

/-- What it says of an opcode byte that the map gives it a format. -/
def Layout.Encodes (op : Byte) : Layout → Prop
  | .none i => encode i = [op]
  | .imm8 mk => ∀ b, encode (mk b) = encode8 op b
  | .imm16 mk => ∀ v, encode (mk v) = encode16 op v
  | .addr16 mk => ∀ v, encode (mk v) = encode16 op v

/-- The opcode map and the encoder agree, row by row. -/
theorem layoutOf_encodes {op : Byte} {f : Layout} (h : layoutOf op = some f) : f.Encodes op := by
  have hop : ∀ n, op.toNat = n → BitVec.ofNat 8 n = op := by
    intro n hn
    subst hn
    exact by simp
  unfold layoutOf at h
  split at h
  all_goals cases h
  all_goals
    rename_i hn
    rw [← hop _ hn]
    first | rfl | exact fun _ => rfl

end Sys2Proof
end

