-- ==== Sys2Proof/Laws/Assembler.lean ====
section
/-! SUPPORT. The assembler's lines: what one emits has the width pass 1 counts, and diagnostics are only ever added. -/

namespace Sys2Proof.Machine

/-- A mnemonic's format comes from its opcode byte. -/
theorem layoutOf_of_mnemonicLayout {m : List Char} {f : Layout} (h : mnemonicLayout m = some f) :
    ∃ op, layoutOf op = some f := by
  simp only [mnemonicLayout, Option.bind_eq_some_iff] at h
  obtain ⟨op, -, h⟩ := h
  exact ⟨op, h⟩

theorem encodeImmediate_length {line limit n : Nat} {mk : Nat → Instr} {ops : List (List Char)} {bs : List Byte}
    (h : encodeImmediate line limit mk ops = .ok bs) (hl : ∀ v, (encode (mk v)).length = n) : bs.length = n := by
  unfold encodeImmediate at h
  split at h
  · split at h
    · split at h
      · injection h with h
        exact h ▸ hl _
      · exact absurd h (by simp)
    · exact absurd h (by simp)
  · exact absurd h (by simp)

theorem encodeLabelRef_length {table : List (List Char × Nat)} {line n : Nat} {mk : Half → Instr}
    {ops : List (List Char)} {bs : List Byte}
    (h : encodeLabelRef table line mk ops = .ok bs) (hl : ∀ v, (encode (mk v)).length = n) : bs.length = n := by
  unfold encodeLabelRef at h
  split at h
  · split at h
    · split at h
      · split at h
        · injection h with h
          exact h ▸ hl _
        · exact absurd h (by simp)
      · exact absurd h (by simp)
    · exact absurd h (by simp)
  · exact absurd h (by simp)

/-- What an instruction line emits has its mnemonic's width. -/
theorem encodeLine_length {table : List (List Char × Nat)} {line : Nat} {m : List Char} {ops : List (List Char)}
    {bs : List Byte} (h : encodeLine table line m ops = .ok bs) : bs.length = mnemonicWidth m := by
  unfold encodeLine at h
  unfold mnemonicWidth
  split at h
  · exact absurd h (by simp)
  · next hl =>
    rw [hl]
    injection h with h
    subst h
    unfold encodeSta
    split <;> rfl
  · next hl =>
    rw [hl]
    obtain ⟨op, hop⟩ := layoutOf_of_mnemonicLayout hl
    split at h
    · injection h with h
      subst h
      rw [show encode _ = _ from layoutOf_encodes hop]
      rfl
    · exact absurd h (by simp)
  · next hl =>
    rw [hl]
    obtain ⟨op, hop⟩ := layoutOf_of_mnemonicLayout hl
    exact encodeImmediate_length h fun v => by rw [layoutOf_encodes hop]; rfl
  · next hl =>
    rw [hl]
    obtain ⟨op, hop⟩ := layoutOf_of_mnemonicLayout hl
    exact encodeImmediate_length h fun v => by rw [layoutOf_encodes hop]; rfl
  · next hl =>
    rw [hl]
    obtain ⟨op, hop⟩ := layoutOf_of_mnemonicLayout hl
    exact encodeLabelRef_length h fun v => by rw [layoutOf_encodes hop]; rfl

/-- One line of pass 2 only adds diagnostics. -/
theorem pass2Line_diags (table : List (List Char × Nat)) (p : Pass2) (l : Nat × Line) :
    ∃ ds, (pass2Line table p l).diags = p.diags ++ ds := by
  unfold pass2Line
  split
  · split
    · exact ⟨[], by simp⟩
    · exact ⟨_, rfl⟩
  · exact ⟨[], by simp⟩
  · exact ⟨[], by simp⟩

/-- Pass 2 only adds diagnostics. -/
theorem pass2_diags (table : List (List Char × Nat)) : ∀ (ls : List (Nat × Line)) (p : Pass2),
    ∃ ds, (ls.foldl (pass2Line table) p).diags = p.diags ++ ds
  | [], p => ⟨[], by simp⟩
  | l :: ls, p => by
    obtain ⟨ds, h⟩ := pass2_diags table ls (pass2Line table p l)
    obtain ⟨ds', h'⟩ := pass2Line_diags table p l
    exact ⟨ds' ++ ds, by rw [List.foldl_cons, h, h', List.append_assoc]⟩

/-- One line of pass 2 only adds code. -/
theorem pass2Line_code (table : List (List Char × Nat)) (p : Pass2) (l : Nat × Line) :
    ∃ bs, (pass2Line table p l).code = p.code ++ bs := by
  unfold pass2Line
  split
  · split
    · exact ⟨_, rfl⟩
    · exact ⟨[], by simp⟩
  · exact ⟨[], by simp⟩
  · exact ⟨[], by simp⟩

/-- Pass 2 only adds code. -/
theorem pass2_code (table : List (List Char × Nat)) : ∀ (ls : List (Nat × Line)) (p : Pass2),
    ∃ bs, (ls.foldl (pass2Line table) p).code = p.code ++ bs
  | [], p => ⟨[], by simp⟩
  | l :: ls, p => by
    obtain ⟨bs, h⟩ := pass2_code table ls (pass2Line table p l)
    obtain ⟨bs', h'⟩ := pass2Line_code table p l
    exact ⟨bs' ++ bs, by rw [List.foldl_cons, h, h', List.append_assoc]⟩

/-- A token outside the table of mnemonics has no opcode. -/
theorem opcodeOf_eq_none {m : List Char} (h : m ∉ mnemonics.map Prod.fst) : opcodeOf m = none := by
  rw [opcodeOf, List.lookup_eq_none_iff]
  intro p hp
  rw [bne_iff_ne]
  rintro rfl
  exact h (List.mem_map_of_mem hp)

/-- The format of a mnemonic, from its opcode byte. -/
theorem mnemonicLayout_of_opcode {m : List Char} {op : Byte} (h : opcodeOf m = some op) : mnemonicLayout m = layoutOf op := by
  simp only [mnemonicLayout, h, Option.bind_some]

/-- An instruction line with an imm8 mnemonic. -/
theorem encodeLine_imm8 {m : List Char} {mk : Byte → Instr} (h : mnemonicLayout m = some (.imm8 mk))
    (table : List (List Char × Nat)) (line : Nat) (ops : List (List Char)) :
    encodeLine table line m ops = encodeImmediate line 256 (fun n => mk (BitVec.ofNat 8 n)) ops := by
  simp only [encodeLine, h]

/-- An instruction line with an imm16 mnemonic. -/
theorem encodeLine_imm16 {m : List Char} {mk : Half → Instr} (h : mnemonicLayout m = some (.imm16 mk))
    (table : List (List Char × Nat)) (line : Nat) (ops : List (List Char)) :
    encodeLine table line m ops = encodeImmediate line 65536 (fun n => mk (BitVec.ofNat 16 n)) ops := by
  simp only [encodeLine, h]

/-- An instruction line with a jump mnemonic. -/
theorem encodeLine_addr16 {m : List Char} {mk : Half → Instr} (h : mnemonicLayout m = some (.addr16 mk))
    (table : List (List Char × Nat)) (line : Nat) (ops : List (List Char)) :
    encodeLine table line m ops = encodeLabelRef table line mk ops := by
  simp only [encodeLine, h]

/-- An immediate operand is one token: any other number of them is malformed. -/
theorem encodeImmediate_of_length_ne_one {ops : List (List Char)} (h : ops.length ≠ 1) (line limit : Nat) (mk : Nat → Instr) :
    encodeImmediate line limit mk ops = .error (.malformedOperand line) := by
  match ops, h with
  | [], _ => rfl
  | [_], h => exact absurd rfl h
  | _ :: _ :: _, _ => rfl

/-- A label reference is one token: any other number of them is malformed. -/
theorem encodeLabelRef_of_length_ne_one {ops : List (List Char)} (h : ops.length ≠ 1) (table : List (List Char × Nat))
    (line : Nat) (mk : Half → Instr) : encodeLabelRef table line mk ops = .error (.malformedOperand line) := by
  match ops, h with
  | [], _ => rfl
  | [_], h => exact absurd rfl h
  | _ :: _ :: _, _ => rfl

/-- A token is a label reference exactly when it is `@` and an identifier. -/
theorem readLabelRef_eq_some {tok name : List Char} :
    readLabelRef tok = some name ↔ tok = '@' :: name ∧ isIdentifier name = true := by
  unfold readLabelRef
  split
  · split
    · next hi => exact ⟨fun h => by cases h; exact ⟨rfl, hi⟩, fun ⟨h, _⟩ => by cases h; rfl⟩
    · next hi => exact ⟨fun h => absurd h (by simp), fun ⟨h, h'⟩ => by cases h; exact absurd h' hi⟩
  · next h => simp only [reduceCtorEq, false_iff, not_and]; rintro rfl; exact absurd rfl (h name)

/-- One line of pass 1 only adds diagnostics and labels. -/
theorem pass1Line_grows (p : Pass1) (l : Nat × Line) :
    (∃ ds, (pass1Line p l).diags = p.diags ++ ds) ∧ ∃ ts, (pass1Line p l).table = p.table ++ ts := by
  unfold pass1Line
  split
  · exact ⟨⟨_, List.append_assoc _ _ _⟩, ⟨_, rfl⟩⟩
  · exact ⟨⟨[], by simp⟩, ⟨[], by simp⟩⟩
  · exact ⟨⟨[], by simp⟩, ⟨[], by simp⟩⟩

/-- Pass 1 only adds diagnostics and labels. -/
theorem pass1_grows : ∀ (ls : List (Nat × Line)) (p : Pass1),
    (∃ ds, (ls.foldl pass1Line p).diags = p.diags ++ ds) ∧ ∃ ts, (ls.foldl pass1Line p).table = p.table ++ ts
  | [], p => ⟨⟨[], by simp⟩, ⟨[], by simp⟩⟩
  | l :: ls, p => by
    obtain ⟨⟨ds, h⟩, ⟨ts, g⟩⟩ := pass1_grows ls (pass1Line p l)
    obtain ⟨⟨ds', h'⟩, ⟨ts', g'⟩⟩ := pass1Line_grows p l
    exact ⟨⟨ds' ++ ds, by rw [List.foldl_cons, h, h', List.append_assoc]⟩,
      ⟨ts' ++ ts, by rw [List.foldl_cons, g, g', List.append_assoc]⟩⟩

end Sys2Proof.Machine
end

