-- ==== Sys2Proof/Laws/Memory.lean ====
section
/-! SUPPORT. The memory operations keep the canonical form, and what a read gives after each of them. -/

namespace Sys2Proof.Machine

theorem Memory.wfFrom_mono {lo lo' : Nat} (h : lo' ≤ lo) : ∀ {m : Memory}, Memory.wfFrom lo m = true → Memory.wfFrom lo' m = true
  | [], _ => rfl
  | (k, v) :: m, hw => by
    simp only [Memory.wfFrom, Bool.and_eq_true, decide_eq_true_eq] at hw ⊢
    exact ⟨⟨by omega, hw.1.2⟩, hw.2⟩

/-- Below the first address every read gives 0. -/
theorem Memory.get_of_lt {a lo : Nat} (h : a < lo) : ∀ {m : Memory}, Memory.wfFrom lo m = true → m.get a = 0
  | [], _ => rfl
  | (k, v) :: m, hw => by
    simp only [Memory.wfFrom, Bool.and_eq_true, decide_eq_true_eq] at hw
    rw [Memory.get, if_neg (by omega)]
    exact Memory.get_of_lt (by omega) hw.2

theorem Memory.wfFrom_consCell {lo a : Nat} {v : Byte} {m : Memory} (hlo : lo ≤ a)
    (hw : Memory.wfFrom (a + 1) m = true) : Memory.wfFrom lo (Memory.consCell a v m) = true := by
  unfold Memory.consCell
  split
  · exact Memory.wfFrom_mono (by omega) hw
  · next hv =>
    simp only [Memory.wfFrom, Bool.and_eq_true, decide_eq_true_eq]
    exact ⟨⟨hlo, hv⟩, hw⟩

theorem Memory.get_consCell {lo a : Nat} {v : Byte} {m : Memory} (hlo : a < lo)
    (hw : Memory.wfFrom lo m = true) (b : Nat) :
    (Memory.consCell a v m).get b = if b = a then v else m.get b := by
  unfold Memory.consCell
  split
  · next hv =>
    split
    · next hb => rw [hb, hv, Memory.get_of_lt hlo hw]
    · rfl
  · next hv => simp only [Memory.get, eq_comm]

theorem Memory.wfFrom_set {a : Nat} {v : Byte} : ∀ {m : Memory} {lo : Nat}, lo ≤ a →
    Memory.wfFrom lo m = true → Memory.wfFrom lo (m.set a v) = true
  | [], lo, hlo, _ => Memory.wfFrom_consCell hlo rfl
  | (k, b) :: m, lo, hlo, hw => by
    have hw' := hw
    simp only [Memory.wfFrom, Bool.and_eq_true, decide_eq_true_eq] at hw
    unfold Memory.set
    split
    · next hak =>
      refine Memory.wfFrom_consCell hlo ?_
      simp only [Memory.wfFrom, Bool.and_eq_true, decide_eq_true_eq]
      exact ⟨⟨by omega, hw.1.2⟩, hw.2⟩
    · split
      · next _ hak => subst hak; exact Memory.wfFrom_consCell hlo hw.2
      · simp only [Memory.wfFrom, Bool.and_eq_true, decide_eq_true_eq]
        exact ⟨hw.1, Memory.wfFrom_set (by omega) hw.2⟩

/-- A write keeps the canonical form. -/
theorem Memory.wf_set {m : Memory} (hw : m.wf = true) (a : Nat) (v : Byte) : (m.set a v).wf = true :=
  Memory.wfFrom_set (Nat.zero_le a) hw

theorem Memory.get_set_from {a : Nat} {v : Byte} (b : Nat) : ∀ {m : Memory} {lo : Nat},
    Memory.wfFrom lo m = true → (m.set a v).get b = if b = a then v else m.get b
  | [], _, _ => Memory.get_consCell (lo := a + 1) (by omega) rfl b
  | (k, w) :: m, lo, hw => by
    have hw' := hw
    simp only [Memory.wfFrom, Bool.and_eq_true, decide_eq_true_eq] at hw
    unfold Memory.set
    split
    · next hak =>
      refine Memory.get_consCell (lo := k) hak ?_ b
      simp only [Memory.wfFrom, Bool.and_eq_true, decide_eq_true_eq]
      exact ⟨⟨le_refl k, hw.1.2⟩, hw.2⟩
    · split
      · next _ hak =>
        subst hak
        rw [Memory.get_consCell (lo := a + 1) (by omega) hw.2, Memory.get]
        split
        · rfl
        · next hb => rw [if_neg (fun h => hb h.symm)]
      · next _ hak =>
        rw [Memory.get, Memory.get, Memory.get_set_from b hw.2]
        split
        · next hkb => rw [if_neg (by omega)]
        · rfl

/-- Read after write: the address written reads as written, every other address as before. -/
theorem Memory.get_set {m : Memory} (hw : m.wf = true) (a : Nat) (v : Byte) (b : Nat) :
    (m.set a v).get b = if b = a then v else m.get b :=
  Memory.get_set_from b hw

theorem Memory.within_cons (c : Host.Cell) (m : Memory) (size : Nat) :
    Memory.within (c :: m) size = true ↔ c.1 < size ∧ m.within size = true := by
  simp only [Memory.within, List.all_cons, Bool.and_eq_true, decide_eq_true_eq]

theorem Memory.within_consCell {size a : Nat} {v : Byte} {m : Memory} (ha : a < size) (hm : m.within size = true) :
    (Memory.consCell a v m).within size = true := by
  unfold Memory.consCell
  split
  · exact hm
  · exact (Memory.within_cons _ _ _).2 ⟨ha, hm⟩

/-- A write inside the memory adds no entry outside it. -/
theorem Memory.within_set {size a : Nat} {v : Byte} (ha : a < size) : ∀ {m : Memory},
    m.within size = true → (m.set a v).within size = true
  | [], hm => Memory.within_consCell ha hm
  | (k, b) :: m, hm => by
    have hc := (Memory.within_cons _ _ _).1 hm
    unfold Memory.set
    split
    · exact Memory.within_consCell ha hm
    · split
      · exact Memory.within_consCell ha hc.2
      · exact (Memory.within_cons _ _ _).2 ⟨hc.1, Memory.within_set ha hc.2⟩

/-- The loader's copy keeps the canonical form. -/
theorem Memory.wf_copy : ∀ (code : List Byte) {m : Memory} (a : Nat), m.wf = true → (m.copy a code).wf = true
  | [], _, _, h => h
  | v :: vs, _, a, h => Memory.wf_copy vs (a + 1) (Memory.wf_set h a v)

theorem Memory.within_copy {size : Nat} : ∀ (code : List Byte) {m : Memory} (a : Nat), a + code.length ≤ size →
    m.within size = true → (m.copy a code).within size = true
  | [], _, _, _, h => h
  | v :: vs, _, a, hl, h => by
    simp only [List.length_cons] at hl
    exact Memory.within_copy vs (a + 1) (by omega) (Memory.within_set (by omega) h)

/-- What a read gives after the loader's copy. -/
theorem Memory.get_copy (b : Nat) : ∀ (code : List Byte) {m : Memory} (a : Nat), m.wf = true →
    (m.copy a code).get b = if h : a ≤ b ∧ b < a + code.length then code[b - a]'(by omega) else m.get b
  | [], _, a, _ => by simp only [Memory.copy, List.length_nil]; rw [dif_neg (by omega)]
  | v :: vs, m, a, hw => by
    rw [Memory.copy, Memory.get_copy b vs (a + 1) (Memory.wf_set hw a v), Memory.get_set hw]
    simp only [List.length_cons]
    by_cases hb : b = a
    · subst hb
      rw [dif_neg (by omega), if_pos rfl, dif_pos (by omega)]
      simp
    · rw [if_neg hb]
      by_cases h : a + 1 ≤ b ∧ b < a + 1 + vs.length
      · rw [dif_pos h, dif_pos (by omega)]
        simp only [show b - a = (b - (a + 1)) + 1 by omega, List.getElem_cons_succ]
      · rw [dif_neg h, dif_neg (by omega)]

/-- Placing bytes keeps the canonical form. -/
theorem State.wf_placeBytes : ∀ (bytes : List Byte) (s : State) (a : Nat), s.mem.wf = true →
    (s.placeBytes a bytes).mem.wf = true
  | [], _, _, h => h
  | v :: vs, s, a, h => by
    unfold State.placeBytes
    refine State.wf_placeBytes vs _ (a + 1) ?_
    split
    · exact Memory.wf_set h a v
    · exact h

theorem State.reset_memory_wf : State.reset.mem.wf = true := rfl

/-! A byte and a fetch read inside and outside the memory. -/

theorem State.readByte_of_lt {s : State} {a : Nat} (h : a < s.cfg.memSize) : s.readByte a = some (s.mem.get a) :=
  if_pos h

theorem State.readByte_of_le {s : State} {a : Nat} (h : s.cfg.memSize ≤ a) : s.readByte a = none :=
  if_neg (by omega)

theorem State.memRead_of_lt {s : State} {a : Nat} (h : a < s.cfg.memSize) : s.memRead a = .ok (s.mem.get a) := by
  simp only [State.memRead, State.readByte_of_lt h]

theorem State.memRead_of_le {s : State} {a : Nat} (h : s.cfg.memSize ≤ a) :
    s.memRead a = .error (.fetchOutOfRange a) := by
  simp only [State.memRead, State.readByte_of_le h]

theorem State.memRead_ok {s : State} {a : Nat} {v : Byte} (h : s.memRead a = .ok v) : s.readByte a = some v := by
  unfold State.memRead at h
  split at h
  · next hv =>
    injection h with h
    exact h ▸ hv
  · exact absurd h (by simp)

/-- What `MemWrite` can answer: the fault, or the next state with the handlers called and the byte stored. -/
theorem State.memWrite_next {s t : State} {a : Nat} {v : Byte} (h : s.memWrite a v = .next t) :
    a < s.cfg.memSize ∧
      t = { s with events := s.events ++ handlerEvents s.cfg.periph a v, mem := s.mem.set a v } := by
  unfold State.memWrite at h
  split at h
  · exact absurd h (by simp)
  · next hlt =>
    refine ⟨by omega, ?_⟩
    injection h with h
    exact h.symm

theorem State.memWrite_fault {s : State} {a : Nat} {v : Byte} {f : Fault} (h : s.memWrite a v = .fault f) :
    s.cfg.memSize ≤ a ∧ f = .storeOutOfRange a := by
  unfold State.memWrite at h
  split at h
  · next hle =>
    injection h with h
    exact ⟨hle, h.symm⟩
  · exact absurd h (by simp)

end Sys2Proof.Machine
end

