-- ==== Sys2Proof/Laws/State.lean ====
section
/-! SUPPORT. One lemma per field per update of State, and what each register read becomes, so that no later proof unfolds a record update. -/

namespace Sys2Proof.Machine

variable (s : State)

/-! `advance` writes pc. -/

@[simp] theorem State.advance_cfg (n : Nat) : (s.advance n).cfg = s.cfg := rfl
@[simp] theorem State.advance_a (n : Nat) : (s.advance n).a = s.a := rfl
@[simp] theorem State.advance_b (n : Nat) : (s.advance n).b = s.b := rfl
@[simp] theorem State.advance_x (n : Nat) : (s.advance n).x = s.x := rfl
@[simp] theorem State.advance_y (n : Nat) : (s.advance n).y = s.y := rfl
@[simp] theorem State.advance_pc (n : Nat) : (s.advance n).pc = s.pc + n := rfl
@[simp] theorem State.advance_start (n : Nat) : (s.advance n).start = s.start := rfl
@[simp] theorem State.advance_eqF (n : Nat) : (s.advance n).eqF = s.eqF := rfl
@[simp] theorem State.advance_neF (n : Nat) : (s.advance n).neF = s.neF := rfl
@[simp] theorem State.advance_ltF (n : Nat) : (s.advance n).ltF = s.ltF := rfl
@[simp] theorem State.advance_gtF (n : Nat) : (s.advance n).gtF = s.gtF := rfl
@[simp] theorem State.advance_ovf (n : Nat) : (s.advance n).ovf = s.ovf := rfl
@[simp] theorem State.advance_carry (n : Nat) : (s.advance n).carry = s.carry := rfl
@[simp] theorem State.advance_mem (n : Nat) : (s.advance n).mem = s.mem := rfl
@[simp] theorem State.advance_events (n : Nat) : (s.advance n).events = s.events := rfl
@[simp] theorem State.advance_outcome (n : Nat) : (s.advance n).outcome = s.outcome := rfl

/-! `compare` writes the four comparison flags. -/

@[simp] theorem State.compare_cfg (v imm : Nat) : (s.compare v imm).cfg = s.cfg := rfl
@[simp] theorem State.compare_a (v imm : Nat) : (s.compare v imm).a = s.a := rfl
@[simp] theorem State.compare_b (v imm : Nat) : (s.compare v imm).b = s.b := rfl
@[simp] theorem State.compare_x (v imm : Nat) : (s.compare v imm).x = s.x := rfl
@[simp] theorem State.compare_y (v imm : Nat) : (s.compare v imm).y = s.y := rfl
@[simp] theorem State.compare_pc (v imm : Nat) : (s.compare v imm).pc = s.pc := rfl
@[simp] theorem State.compare_start (v imm : Nat) : (s.compare v imm).start = s.start := rfl
@[simp] theorem State.compare_eqF (v imm : Nat) : (s.compare v imm).eqF = decide (v = imm) := rfl
@[simp] theorem State.compare_neF (v imm : Nat) : (s.compare v imm).neF = decide (v ≠ imm) := rfl
@[simp] theorem State.compare_ltF (v imm : Nat) : (s.compare v imm).ltF = decide (v < imm) := rfl
@[simp] theorem State.compare_gtF (v imm : Nat) : (s.compare v imm).gtF = decide (v > imm) := rfl
@[simp] theorem State.compare_ovf (v imm : Nat) : (s.compare v imm).ovf = s.ovf := rfl
@[simp] theorem State.compare_carry (v imm : Nat) : (s.compare v imm).carry = s.carry := rfl
@[simp] theorem State.compare_mem (v imm : Nat) : (s.compare v imm).mem = s.mem := rfl
@[simp] theorem State.compare_events (v imm : Nat) : (s.compare v imm).events = s.events := rfl
@[simp] theorem State.compare_outcome (v imm : Nat) : (s.compare v imm).outcome = s.outcome := rfl

/-! `emit` writes events. -/

@[simp] theorem State.emit_cfg (e : Event) : (s.emit e).cfg = s.cfg := rfl
@[simp] theorem State.emit_a (e : Event) : (s.emit e).a = s.a := rfl
@[simp] theorem State.emit_b (e : Event) : (s.emit e).b = s.b := rfl
@[simp] theorem State.emit_x (e : Event) : (s.emit e).x = s.x := rfl
@[simp] theorem State.emit_y (e : Event) : (s.emit e).y = s.y := rfl
@[simp] theorem State.emit_pc (e : Event) : (s.emit e).pc = s.pc := rfl
@[simp] theorem State.emit_start (e : Event) : (s.emit e).start = s.start := rfl
@[simp] theorem State.emit_eqF (e : Event) : (s.emit e).eqF = s.eqF := rfl
@[simp] theorem State.emit_neF (e : Event) : (s.emit e).neF = s.neF := rfl
@[simp] theorem State.emit_ltF (e : Event) : (s.emit e).ltF = s.ltF := rfl
@[simp] theorem State.emit_gtF (e : Event) : (s.emit e).gtF = s.gtF := rfl
@[simp] theorem State.emit_ovf (e : Event) : (s.emit e).ovf = s.ovf := rfl
@[simp] theorem State.emit_carry (e : Event) : (s.emit e).carry = s.carry := rfl
@[simp] theorem State.emit_mem (e : Event) : (s.emit e).mem = s.mem := rfl
@[simp] theorem State.emit_events (e : Event) : (s.emit e).events = s.events ++ [e] := rfl
@[simp] theorem State.emit_outcome (e : Event) : (s.emit e).outcome = s.outcome := rfl

/-! `report` writes outcome. -/

@[simp] theorem State.report_cfg (o : StepOutcome) : (s.report o).cfg = s.cfg := rfl
@[simp] theorem State.report_a (o : StepOutcome) : (s.report o).a = s.a := rfl
@[simp] theorem State.report_b (o : StepOutcome) : (s.report o).b = s.b := rfl
@[simp] theorem State.report_x (o : StepOutcome) : (s.report o).x = s.x := rfl
@[simp] theorem State.report_y (o : StepOutcome) : (s.report o).y = s.y := rfl
@[simp] theorem State.report_pc (o : StepOutcome) : (s.report o).pc = s.pc := rfl
@[simp] theorem State.report_start (o : StepOutcome) : (s.report o).start = s.start := rfl
@[simp] theorem State.report_eqF (o : StepOutcome) : (s.report o).eqF = s.eqF := rfl
@[simp] theorem State.report_neF (o : StepOutcome) : (s.report o).neF = s.neF := rfl
@[simp] theorem State.report_ltF (o : StepOutcome) : (s.report o).ltF = s.ltF := rfl
@[simp] theorem State.report_gtF (o : StepOutcome) : (s.report o).gtF = s.gtF := rfl
@[simp] theorem State.report_ovf (o : StepOutcome) : (s.report o).ovf = s.ovf := rfl
@[simp] theorem State.report_carry (o : StepOutcome) : (s.report o).carry = s.carry := rfl
@[simp] theorem State.report_mem (o : StepOutcome) : (s.report o).mem = s.mem := rfl
@[simp] theorem State.report_events (o : StepOutcome) : (s.report o).events = s.events := rfl
@[simp] theorem State.report_outcome (o : StepOutcome) : (s.report o).outcome = some o := rfl

/-! `writeReg` and `setReg` leave everything but the general registers, and OVF. -/

@[simp] theorem State.writeReg_cfg (r : Reg) (w : Nat) : (s.writeReg r w).cfg = s.cfg := by cases r <;> rfl
@[simp] theorem State.writeReg_pc (r : Reg) (w : Nat) : (s.writeReg r w).pc = s.pc := by cases r <;> rfl
@[simp] theorem State.writeReg_start (r : Reg) (w : Nat) : (s.writeReg r w).start = s.start := by cases r <;> rfl
@[simp] theorem State.writeReg_eqF (r : Reg) (w : Nat) : (s.writeReg r w).eqF = s.eqF := by cases r <;> rfl
@[simp] theorem State.writeReg_neF (r : Reg) (w : Nat) : (s.writeReg r w).neF = s.neF := by cases r <;> rfl
@[simp] theorem State.writeReg_ltF (r : Reg) (w : Nat) : (s.writeReg r w).ltF = s.ltF := by cases r <;> rfl
@[simp] theorem State.writeReg_gtF (r : Reg) (w : Nat) : (s.writeReg r w).gtF = s.gtF := by cases r <;> rfl
@[simp] theorem State.writeReg_ovf (r : Reg) (w : Nat) : (s.writeReg r w).ovf = s.ovf := by cases r <;> rfl
@[simp] theorem State.writeReg_carry (r : Reg) (w : Nat) : (s.writeReg r w).carry = s.carry := by cases r <;> rfl
@[simp] theorem State.writeReg_mem (r : Reg) (w : Nat) : (s.writeReg r w).mem = s.mem := by cases r <;> rfl
@[simp] theorem State.writeReg_events (r : Reg) (w : Nat) : (s.writeReg r w).events = s.events := by cases r <;> rfl
@[simp] theorem State.writeReg_outcome (r : Reg) (w : Nat) : (s.writeReg r w).outcome = s.outcome := by cases r <;> rfl

@[simp] theorem State.setReg_cfg (r : Reg) (v : Int) : (s.setReg r v).cfg = s.cfg := by cases r <;> rfl
@[simp] theorem State.setReg_pc (r : Reg) (v : Int) : (s.setReg r v).pc = s.pc := by cases r <;> rfl
@[simp] theorem State.setReg_start (r : Reg) (v : Int) : (s.setReg r v).start = s.start := by cases r <;> rfl
@[simp] theorem State.setReg_eqF (r : Reg) (v : Int) : (s.setReg r v).eqF = s.eqF := by cases r <;> rfl
@[simp] theorem State.setReg_neF (r : Reg) (v : Int) : (s.setReg r v).neF = s.neF := by cases r <;> rfl
@[simp] theorem State.setReg_ltF (r : Reg) (v : Int) : (s.setReg r v).ltF = s.ltF := by cases r <;> rfl
@[simp] theorem State.setReg_gtF (r : Reg) (v : Int) : (s.setReg r v).gtF = s.gtF := by cases r <;> rfl
@[simp] theorem State.setReg_ovf (r : Reg) (v : Int) : (s.setReg r v).ovf = overflows r.width v := by cases r <;> rfl
@[simp] theorem State.setReg_carry (r : Reg) (v : Int) : (s.setReg r v).carry = s.carry := by cases r <;> rfl
@[simp] theorem State.setReg_mem (r : Reg) (v : Int) : (s.setReg r v).mem = s.mem := by cases r <;> rfl
@[simp] theorem State.setReg_events (r : Reg) (v : Int) : (s.setReg r v).events = s.events := by cases r <;> rfl
@[simp] theorem State.setReg_outcome (r : Reg) (v : Int) : (s.setReg r v).outcome = s.outcome := by cases r <;> rfl

/-! The register that `writeReg` names, and the others. -/

@[simp] theorem State.writeReg_a_a (w : Nat) : (s.writeReg .a w).a = BitVec.ofNat 8 w := rfl
@[simp] theorem State.writeReg_a_b (w : Nat) : (s.writeReg .a w).b = s.b := rfl
@[simp] theorem State.writeReg_a_x (w : Nat) : (s.writeReg .a w).x = s.x := rfl
@[simp] theorem State.writeReg_a_y (w : Nat) : (s.writeReg .a w).y = s.y := rfl
@[simp] theorem State.writeReg_b_a (w : Nat) : (s.writeReg .b w).a = s.a := rfl
@[simp] theorem State.writeReg_b_b (w : Nat) : (s.writeReg .b w).b = BitVec.ofNat 8 w := rfl
@[simp] theorem State.writeReg_b_x (w : Nat) : (s.writeReg .b w).x = s.x := rfl
@[simp] theorem State.writeReg_b_y (w : Nat) : (s.writeReg .b w).y = s.y := rfl
@[simp] theorem State.writeReg_x_a (w : Nat) : (s.writeReg .x w).a = s.a := rfl
@[simp] theorem State.writeReg_x_b (w : Nat) : (s.writeReg .x w).b = s.b := rfl
@[simp] theorem State.writeReg_x_x (w : Nat) : (s.writeReg .x w).x = BitVec.ofNat 16 w := rfl
@[simp] theorem State.writeReg_x_y (w : Nat) : (s.writeReg .x w).y = s.y := rfl
@[simp] theorem State.writeReg_y_a (w : Nat) : (s.writeReg .y w).a = s.a := rfl
@[simp] theorem State.writeReg_y_b (w : Nat) : (s.writeReg .y w).b = s.b := rfl
@[simp] theorem State.writeReg_y_x (w : Nat) : (s.writeReg .y w).x = s.x := rfl
@[simp] theorem State.writeReg_y_y (w : Nat) : (s.writeReg .y w).y = BitVec.ofNat 16 w := rfl
@[simp] theorem State.writeReg_d_a (w : Nat) : (s.writeReg .d w).a = BitVec.ofNat 8 (w / 256) := rfl
@[simp] theorem State.writeReg_d_b (w : Nat) : (s.writeReg .d w).b = BitVec.ofNat 8 (w % 256) := rfl
@[simp] theorem State.writeReg_d_x (w : Nat) : (s.writeReg .d w).x = s.x := rfl
@[simp] theorem State.writeReg_d_y (w : Nat) : (s.writeReg .d w).y = s.y := rfl

/-- `setReg` wraps and stores what `writeReg` stores. -/
theorem State.setReg_eq (r : Reg) (v : Int) :
    s.setReg r v = { s with ovf := overflows r.width v }.writeReg r (wrap r.width v) := rfl

/-- Advancing and `setReg` commute. -/
theorem State.advance_setReg (n : Nat) (r : Reg) (v : Int) :
    (s.advance n).setReg r v = { s.setReg r v with pc := s.pc + n } := by
  cases r <;> rfl

/-! A byte read depends on the configuration and the memory alone. -/

theorem State.readByte_congr (s t : State) (hc : t.cfg = s.cfg) (hm : t.mem = s.mem) (a : Nat) :
    t.readByte a = s.readByte a := by
  simp only [State.readByte, hc, hm]

/-! What the end of a step changes. -/

theorem finishStep_endOp : finishStep .endOp s = s := rfl

theorem finishStep_of_ne (i : Instr) (h : i ≠ .endOp) :
    finishStep i s = (s.emit (.notify s.snapshot)).report .continued := by
  cases i <;> first | rfl | exact absurd rfl h

@[simp] theorem finishStep_cfg (i : Instr) : (finishStep i s).cfg = s.cfg := by cases i <;> rfl
@[simp] theorem finishStep_a (i : Instr) : (finishStep i s).a = s.a := by cases i <;> rfl
@[simp] theorem finishStep_b (i : Instr) : (finishStep i s).b = s.b := by cases i <;> rfl
@[simp] theorem finishStep_x (i : Instr) : (finishStep i s).x = s.x := by cases i <;> rfl
@[simp] theorem finishStep_y (i : Instr) : (finishStep i s).y = s.y := by cases i <;> rfl
@[simp] theorem finishStep_pc (i : Instr) : (finishStep i s).pc = s.pc := by cases i <;> rfl
@[simp] theorem finishStep_start (i : Instr) : (finishStep i s).start = s.start := by cases i <;> rfl
@[simp] theorem finishStep_eqF (i : Instr) : (finishStep i s).eqF = s.eqF := by cases i <;> rfl
@[simp] theorem finishStep_neF (i : Instr) : (finishStep i s).neF = s.neF := by cases i <;> rfl
@[simp] theorem finishStep_ltF (i : Instr) : (finishStep i s).ltF = s.ltF := by cases i <;> rfl
@[simp] theorem finishStep_gtF (i : Instr) : (finishStep i s).gtF = s.gtF := by cases i <;> rfl
@[simp] theorem finishStep_ovf (i : Instr) : (finishStep i s).ovf = s.ovf := by cases i <;> rfl
@[simp] theorem finishStep_carry (i : Instr) : (finishStep i s).carry = s.carry := by cases i <;> rfl
@[simp] theorem finishStep_mem (i : Instr) : (finishStep i s).mem = s.mem := by cases i <;> rfl

end Sys2Proof.Machine
end

