-- ==== Sys2Proof/Laws/Step.lean ====
section
/-! SUPPORT. What each shared operation, each meaning and one step can do: said once, cited by every later proof. -/

namespace Sys2Proof.Machine

/-- A completed step is a fetched instruction's rule, finished. -/
theorem step_next {s t : State} (h : step s = .next t) :
    ∃ i u, fetch s = .ok i ∧ exec i s = .next u ∧ t = finishStep i u := by
  unfold step at h
  split at h
  · exact absurd h (by simp)
  · next i hi =>
    split at h
    · next u hu =>
      injection h with h
      exact ⟨i, u, hi, hu, h.symm⟩
    · exact absurd h (by simp)
    · exact absurd h (by simp)

/-- A step that faults does so in its fetch or in its instruction's rule. -/
theorem step_fault {s : State} {f : Fault} (h : step s = .fault f) :
    fetch s = .error f ∨ ∃ i, fetch s = .ok i ∧ exec i s = .fault f := by
  unfold step at h
  split at h
  · next g hg =>
    injection h with h
    exact .inl (h ▸ hg)
  · next i hi =>
    split at h
    · exact absurd h (by simp)
    · next g hg =>
      injection h with h
      exact .inr ⟨i, hi, h ▸ hg⟩
    · exact absurd h (by simp)

/-- The step of a fetched instruction. -/
theorem step_of_fetch {s : State} {i : Instr} (h : fetch s = .ok i) :
    step s = match exec i s with
      | .next t => .next (finishStep i t)
      | .fault f => .fault f
      | .refused r => .refused r := by
  cases he : exec i s <;> simp only [step, h, he]

theorem step_of_fetch_error {s : State} {f : Fault} (h : fetch s = .error f) : step s = .fault f := by
  simp only [step, h]

/-- Every instruction but STA answers a next state, always. -/
theorem exec_next_of_ne_sta (i : Instr) (s : State) (h : i ≠ .sta) : ∃ t, exec i s = .next t := by
  cases i <;> first | exact ⟨_, rfl⟩ | exact absurd rfl h

/-- STA is a `MemWrite` after the advance. -/
theorem exec_sta (s : State) : exec .sta s = (s.advance 1).memWrite s.storeAddress s.a := rfl

/-- What a completed STA has done. -/
theorem exec_sta_next {s t : State} (h : exec .sta s = .next t) :
    s.x.toNat < s.cfg.memSize ∧
      t = { s with
        pc := s.pc + 1
        events := s.events ++ handlerEvents s.cfg.periph s.x.toNat s.a
        mem := s.mem.set s.x.toNat s.a } := by
  rw [exec_sta] at h
  exact State.memWrite_next h

/-- No instruction is refused. -/
theorem exec_ne_refused (i : Instr) (s : State) (r : Refusal) : exec i s ≠ .refused r := by
  intro h
  by_cases hs : i = .sta
  · subst hs
    rw [exec_sta] at h
    unfold State.memWrite at h
    split at h <;> exact absurd h (by simp)
  · obtain ⟨t, ht⟩ := exec_next_of_ne_sta i s hs
    rw [ht] at h
    exact absurd h (by simp)

/-- An instruction faults only by a STA outside the memory. -/
theorem exec_fault {i : Instr} {s : State} {f : Fault} (h : exec i s = .fault f) :
    i = .sta ∧ s.cfg.memSize ≤ s.storeAddress ∧ f = .storeOutOfRange s.storeAddress := by
  by_cases hs : i = .sta
  · subst hs
    rw [exec_sta] at h
    have hf := State.memWrite_fault h
    exact ⟨rfl, hf.1, hf.2⟩
  · obtain ⟨t, ht⟩ := exec_next_of_ne_sta i s hs
    rw [ht] at h
    exact absurd h (by simp)

/-- What no instruction changes: the configuration, the start address, CARRY. -/
theorem exec_keeps {i : Instr} {s t : State} (h : exec i s = .next t) :
    t.cfg = s.cfg ∧ t.start = s.start ∧ t.carry = s.carry := by
  by_cases hs : i = .sta
  · subst hs
    rw [exec_sta] at h
    obtain ⟨-, rfl⟩ := State.memWrite_next h
    exact ⟨rfl, rfl, rfl⟩
  · cases i <;> first | exact absurd rfl hs | skip
    all_goals
      injection h with h
      subst h
      first | exact ⟨State.setReg_cfg _ _ _, State.setReg_start _ _ _, State.setReg_carry _ _ _⟩ | exact ⟨rfl, rfl, rfl⟩

/-- Every instruction but STA leaves the memory and, but for END, the outcome; only STA emits events in its own rule. -/
theorem exec_mem_of_ne_sta {i : Instr} {s t : State} (hs : i ≠ .sta) (h : exec i s = .next t) :
    t.mem = s.mem ∧ t.events = s.events := by
  cases i <;> first | exact absurd rfl hs | skip
  all_goals
    injection h with h
    subst h
    first | exact ⟨State.setReg_mem _ _ _, State.setReg_events _ _ _⟩ | exact ⟨rfl, rfl⟩

/-- A jump goes to its target or past its three bytes. -/
theorem jumpIf_pc {b : Bool} {off : Half} {s t : State} (h : jumpIf b off s = .next t) :
    t.pc = s.pc + 3 ∨ ∃ off : Half, t.pc = s.start.toNat + off.toNat := by
  injection h with h
  subst h
  cases b
  · exact .inl rfl
  · exact .inr ⟨off, rfl⟩

/-- Where the pc goes: past the instruction, or to a jump's target. -/
theorem exec_pc {i : Instr} {s t : State} (h : exec i s = .next t) :
    t.pc = s.pc + i.length ∨ ∃ off : Half, t.pc = s.start.toNat + off.toNat := by
  by_cases hs : i = .sta
  · subst hs
    rw [exec_sta] at h
    obtain ⟨-, rfl⟩ := State.memWrite_next h
    exact .inl rfl
  · cases i <;> first | exact absurd rfl hs | skip
    all_goals first
      | exact jumpIf_pc h
      | (injection h with h; subst h; first | exact .inl (State.setReg_pc _ _ _) | exact .inl rfl)

/-- A fetch depends on the configuration, the memory and the pc alone. -/
theorem fetch_congr {s t : State} (hc : t.cfg = s.cfg) (hm : t.mem = s.mem) (hp : t.pc = s.pc) : fetch t = fetch s := by
  have h1 := State.readByte_congr s t hc hm
  have h2 : ∀ a, t.memRead a = s.memRead a := fun a => by simp only [State.memRead, h1]
  have h3 : ∀ a, t.memRead2 a = s.memRead2 a := fun a => by simp only [State.memRead2, h2]
  simp only [fetch, hp, h2, h3]

/-- What a 2-byte read has read. -/
theorem State.memRead2_ok {s : State} {a : Nat} {v : Half} (h : s.memRead2 a = .ok v) :
    ∃ b1 b0, s.readByte a = some b1 ∧ s.readByte (a + 1) = some b0 ∧ v = bigEndian b1 b0 := by
  unfold State.memRead2 at h
  split at h
  · exact absurd h (by simp)
  · next b1 h1 =>
    split at h
    · exact absurd h (by simp)
    · next b0 h0 =>
      injection h with h
      exact ⟨b1, b0, State.memRead_ok h1, State.memRead_ok h0, h.symm⟩

/-- A fetched instruction's encoding stands at the pc. -/
theorem bytesAtPc_of_fetch {s : State} {i : Instr} (h : fetch s = .ok i) : s.bytesAtPc (encode i) := by
  unfold fetch at h
  split at h
  · exact absurd h (by simp)
  · next op hop =>
    have hop := State.memRead_ok hop
    split at h
    · exact absurd h (by simp)
    · next hl =>
      injection h with h
      subst h
      rw [show encode _ = _ from layoutOf_encodes hl]
      intro k v hk
      rcases k with _ | k <;> simp_all
    · next mk hl =>
      rcases hm : s.memRead (s.pc + 1) with e | b <;> rw [hm] at h <;> cases h
      have h1 := State.memRead_ok hm
      rw [layoutOf_encodes hl]
      intro k v hk
      rcases k with _ | _ | k <;> simp_all [encode8]
    all_goals
      next mk hl =>
      rcases hm : s.memRead2 (s.pc + 1) with e | b <;> rw [hm] at h <;> cases h
      obtain ⟨b1, b0, h1, h0, rfl⟩ := State.memRead2_ok hm
      rw [layoutOf_encodes hl]
      intro k v hk
      rcases k with _ | _ | _ | k <;> simp_all [encode16]

/-- A fetched instruction's opcode byte lies inside the memory. -/
theorem fetch_ok_pc {s : State} {i : Instr} (h : fetch s = .ok i) : s.pc < s.cfg.memSize := by
  by_contra hge
  have hn : s.readByte s.pc = none := if_neg hge
  simp only [fetch, State.memRead, hn] at h
  exact absurd h (by simp)

/-- The length of an instruction is 1, 2 or 3. -/
theorem Instr.length_le (i : Instr) : 1 ≤ i.length ∧ i.length ≤ 3 := by
  cases i <;> simp [Instr.length]

end Sys2Proof.Machine
end

