-- ==== Sys2Proof/Laws/Commands.lean ====
section
/-! SUPPORT. What the commands around the step do: load of an image, a boundary of a run, a run in two parts. -/

namespace Sys2Proof.Machine

/-- `load` of a whole image that fits. -/
theorem loadCommand_imageOf (s : State) (startAddr entryAddr : Half) (code : List Byte)
    (h : codeFits s.cfg.memSize startAddr.toNat code = true) :
    loadCommand (imageOf startAddr entryAddr code) s = (.loaded, s.loadCode startAddr entryAddr code) := by
  simp [loadCommand, imageOf, imageHeader, magic, loadBody, h]

/-- A load either succeeds or changes nothing but the events. -/
theorem loadCommand_cases (image : List Byte) (s : State) :
    (loadCommand image s).1 = .loaded ∨ (loadCommand image s).2.withoutOutputs = s.withoutOutputs := by
  unfold loadCommand
  split
  · unfold loadBody
    split
    · split
      · exact .inl rfl
      · exact .inr rfl
    · exact .inr rfl
  · exact .inr rfl

/-- The step command of a completed step. -/
theorem stepCommand_of_next {s t : State} (h : step s = .next t) : stepCommand s = (some t.lastOutcome, t) := by
  simp only [stepCommand, h]

/-- The step command of an abnormal end. -/
theorem stepCommand_of_fault {s : State} {f : Fault} (h : step s = .fault f) :
    stepCommand s = (some f.toOutcome, s.endAbnormally f) := by
  simp only [stepCommand, h]

/-- A run whose first boundaries ask for no stop goes on where they leave it. -/
theorem runLoop_undisturbed_append (bs : List Boundary) : ∀ (k : Nat) (s t : State),
    runLoop (undisturbed k) false s = (.running false, t) →
    runLoop (undisturbed k ++ bs) false s = runLoop bs false t
  | 0, s, t, h => by
    simp only [undisturbed, List.replicate, runLoop, Prod.mk.injEq] at h
    rw [h.2]
    rfl
  | k + 1, s, t, h => by
    simp only [undisturbed, List.replicate_succ, List.cons_append, runLoop, stopsHere] at h ⊢
    rcases hsc : stepCommand s with ⟨o, u⟩
    rw [hsc] at h
    rcases o with _ | o
    · simp at h
    · cases o <;> simp at h ⊢
      exact runLoop_undisturbed_append bs k u t h

end Sys2Proof.Machine
end

