-- ==== Sys2Proof/Laws/PerInstr.lean ====
section
/-! SUPPORT. Facts of every instruction as syntax, one lemma per constructor. -/

namespace Sys2Proof.Laws.EncodingLength

/-- The encoding has the instruction's length, and its first byte alone gives that length (30_encoding.md R70, R74). -/
def Statement (i : Instr) : Prop :=
  (encode i).length = i.length ∧ ((encode i).head?.bind layoutOf).map Layout.length = some i.length

theorem lda (v : Byte) : Statement (.lda v) := ⟨rfl, rfl⟩

theorem ldx (v : Half) : Statement (.ldx v) := ⟨rfl, rfl⟩

theorem sta : Statement .sta := ⟨rfl, rfl⟩

theorem endOp : Statement .endOp := ⟨rfl, rfl⟩

theorem cmpa (v : Byte) : Statement (.cmpa v) := ⟨rfl, rfl⟩

theorem cmpb (v : Byte) : Statement (.cmpb v) := ⟨rfl, rfl⟩

theorem cmpx (v : Half) : Statement (.cmpx v) := ⟨rfl, rfl⟩

theorem cmpy (v : Half) : Statement (.cmpy v) := ⟨rfl, rfl⟩

theorem cmpd (v : Half) : Statement (.cmpd v) := ⟨rfl, rfl⟩

theorem jmp (v : Half) : Statement (.jmp v) := ⟨rfl, rfl⟩

theorem jeq (v : Half) : Statement (.jeq v) := ⟨rfl, rfl⟩

theorem jne (v : Half) : Statement (.jne v) := ⟨rfl, rfl⟩

theorem jgt (v : Half) : Statement (.jgt v) := ⟨rfl, rfl⟩

theorem jlt (v : Half) : Statement (.jlt v) := ⟨rfl, rfl⟩

theorem inca : Statement .inca := ⟨rfl, rfl⟩

theorem incb : Statement .incb := ⟨rfl, rfl⟩

theorem incx : Statement .incx := ⟨rfl, rfl⟩

theorem incy : Statement .incy := ⟨rfl, rfl⟩

theorem incd : Statement .incd := ⟨rfl, rfl⟩

theorem deca : Statement .deca := ⟨rfl, rfl⟩

theorem decb : Statement .decb := ⟨rfl, rfl⟩

theorem decx : Statement .decx := ⟨rfl, rfl⟩

theorem decy : Statement .decy := ⟨rfl, rfl⟩

theorem decd : Statement .decd := ⟨rfl, rfl⟩

theorem ldb (v : Byte) : Statement (.ldb v) := ⟨rfl, rfl⟩

theorem ldy (v : Half) : Statement (.ldy v) := ⟨rfl, rfl⟩

end Sys2Proof.Laws.EncodingLength
end

