-- ==== Sys2Proof/Laws/Registers.lean ====
section
/-! SUPPORT. The arithmetic of setReg: wrapping, the D pair, and the stored values as bit vectors. -/

namespace Sys2Proof.Machine

/-- `wrap` is the Euclidean remainder. -/
theorem wrap_cast (w : Nat) (v : Int) : (wrap w v : Int) = v % 2 ^ w := by
  unfold wrap
  exact Int.toNat_of_nonneg (Int.emod_nonneg v (by positivity))

theorem wrap_lt (w : Nat) (v : Int) : wrap w v < 2 ^ w := by
  have h := Int.emod_lt_of_pos v (show (0 : Int) < 2 ^ w by positivity)
  rw [← wrap_cast] at h
  exact_mod_cast h

theorem wrap_natCast (w n : Nat) : wrap w n = n % 2 ^ w := by
  have h := wrap_cast w n
  exact_mod_cast h

theorem pairValue_lt (a b : Byte) : pairValue a b < 65536 := by
  have h1 := a.isLt
  have h2 := b.isLt
  unfold pairValue
  omega

theorem State.regD_toNat (s : State) : s.regD.toNat = s.a.toNat * 256 + s.b.toNat := by
  have h := pairValue_lt s.a s.b
  unfold pairValue at h
  rw [State.regD, BitVec.toNat_ofNat, pairValue, Nat.mod_eq_of_lt (by omega)]

/-- An increment overflows exactly at the largest value. -/
theorem overflows_add_one {w : Nat} (v : BitVec w) :
    overflows w ((v.toNat : Int) + 1) = decide (v.toNat = 2 ^ w - 1) := by
  have hv := v.isLt
  have hc : (2 : Int) ^ w = ((2 ^ w : Nat) : Int) := by norm_cast
  unfold overflows maxValue
  exact decide_eq_decide.2 (by rw [hc]; omega)

/-- A decrement never overflows. -/
theorem overflows_sub_one {w : Nat} (v : BitVec w) : overflows w ((v.toNat : Int) - 1) = false := by
  have hv := v.isLt
  have hc : (2 : Int) ^ w = ((2 ^ w : Nat) : Int) := by norm_cast
  unfold overflows maxValue
  exact decide_eq_false (by rw [hc]; omega)

/-- A value of the register's own width never overflows. -/
theorem overflows_toNat {w : Nat} (v : BitVec w) : overflows w (v.toNat : Int) = false := by
  have hv := v.isLt
  have hc : (2 : Int) ^ w = ((2 ^ w : Nat) : Int) := by norm_cast
  unfold overflows maxValue
  exact decide_eq_false (by rw [hc]; omega)

/-- Storing a value of the register's own width stores it. -/
theorem ofNat_wrap_toNat {w : Nat} (v : BitVec w) : BitVec.ofNat w (wrap w v.toNat) = v := by
  apply BitVec.eq_of_toNat_eq
  rw [wrap_natCast, BitVec.toNat_ofNat, Nat.mod_mod, Nat.mod_eq_of_lt v.isLt]

/-- Storing a value plus one, wrapped, is the bit vector's own increment. -/
theorem ofNat_wrap_add_one {w : Nat} (v : BitVec w) : BitVec.ofNat w (wrap w (v.toNat + 1)) = v + 1 := by
  apply BitVec.eq_of_toNat_eq
  have h : wrap w ((v.toNat : Int) + 1) = (v.toNat + 1) % 2 ^ w := by exact_mod_cast wrap_natCast w (v.toNat + 1)
  rw [h, BitVec.toNat_ofNat, Nat.mod_mod, BitVec.toNat_add]
  rcases w with _ | w
  · simp [Nat.mod_one]
  · simp [BitVec.toNat_ofNat, Nat.add_mod]

/-- Storing a value minus one, wrapped, is the bit vector's own decrement, at the machine's two widths. -/
theorem ofNat_wrap_sub_one {w : Nat} (hw : w = 8 ∨ w = 16) (v : BitVec w) :
    BitVec.ofNat w (wrap w (v.toNat - 1)) = v - 1 := by
  have hv := v.isLt
  have hc := wrap_cast w (v.toNat - 1)
  apply BitVec.eq_of_toNat_eq
  rcases hw with rfl | rfl
  · rw [BitVec.toNat_ofNat, BitVec.toNat_sub, show (1 : BitVec 8).toNat = 1 from rfl]
    norm_num at hc hv ⊢
    omega
  · rw [BitVec.toNat_ofNat, BitVec.toNat_sub, show (1 : BitVec 16).toNat = 1 from rfl]
    norm_num at hc hv ⊢
    omega

end Sys2Proof.Machine
end

