-- ==== Sys2Proof/Tests/Slice0.lean ====
section
/-! SUPPORT. The model's own tests: expected results are written out from the spec (95_test_vectors.md unless said otherwise), and witnesses that every statement's hypotheses can be met. -/

namespace Sys2Proof.Tests

open Sys2Proof.Machine

/-- A computer with 64 KiB and one mapped range, `0xA000 .. 0xA001`. -/
def testConfig : Config :=
  { memSize := 65536
    periph := [{ lo := 0xA000, hi := 0xA001, handler := .device 1 }]
    origin := 4096
    display := { base := 0xA000, width := 1, height := 1 }
    runDelay := 0 }

/-- `bytes` at `0x1000`, loaded there: `start` and `pc` are `0x1000`. -/
def loaded (bytes : List Byte) : State :=
  (State.initial testConfig).loadCode 0x1000 0x1000 bytes

/-- The same in a computer of `n` bytes with the bytes at its top and `pc` there. -/
def atTop (n : Nat) (bytes : List Byte) : State :=
  { State.initial { testConfig with memSize := n } with
    mem := Memory.copy [] (n - bytes.length) bytes
    pc := n - bytes.length }

/-- What `f` reads of the state after one step. -/
def after {α : Type} (f : State → α) (s : State) : Option α :=
  match step s with
  | .next t => some (f t)
  | .fault _ => none
  | .refused _ => none

/-- The fault of one step. -/
def faultOf (s : State) : Option Fault :=
  match step s with
  | .next _ => none
  | .fault f => some f
  | .refused _ => none

/-- (EQ, NE, LT, GT). -/
def flags (s : State) : Bool × Bool × Bool × Bool := (s.eqF, s.neF, s.ltF, s.gtF)

/-! ## WellFormed refuses each ill-formed term -/

theorem test_wellFormed_default : Config.default.wellFormed = true := rfl
theorem test_wellFormed_refuses_empty_memory : ({ testConfig with memSize := 0 } : Config).wellFormed = false := rfl
theorem test_wellFormed_refuses_large_memory : ({ testConfig with memSize := 65537 } : Config).wellFormed = false := rfl
theorem test_wellFormed_smallest_memory : ({ testConfig with memSize := 1 } : Config).wellFormed = true := rfl
theorem test_wellFormed_every_instruction (i : Instr) : i.wellFormed = true := by cases i <;> rfl

/-! ## Decode: every constructor's word, from 30_encoding.md R73 and 95_test_vectors.md 2.7 -/

theorem test_decode_loads_and_store :
    decode [0x01, 0x2A] = .ok (.lda 0x2A, []) ∧ decode [0x22, 0x07] = .ok (.ldb 7, []) ∧
    decode [0x02, 0xA0, 0x00] = .ok (.ldx 0xA000, []) ∧ decode [0x23, 0x00, 0x01] = .ok (.ldy 1, []) ∧
    decode [0x03] = .ok (.sta, []) := ⟨rfl, rfl, rfl, rfl, rfl⟩

theorem test_decode_compares :
    decode [0x05, 0x05] = .ok (.cmpa 5, []) ∧ decode [0x06, 0xFF] = .ok (.cmpb 255, []) ∧
    decode [0x07, 0xA0, 0x06] = .ok (.cmpx 0xA006, []) ∧ decode [0x08, 0x00, 0x00] = .ok (.cmpy 0, []) ∧
    decode [0x09, 0x01, 0x2C] = .ok (.cmpd 300, []) := ⟨rfl, rfl, rfl, rfl, rfl⟩

theorem test_decode_jumps_and_end :
    decode [0x0A, 0x01, 0x02] = .ok (.jmp 0x0102, []) ∧ decode [0x0B, 0x01, 0x02] = .ok (.jeq 0x0102, []) ∧
    decode [0x0C, 0x01, 0x02] = .ok (.jne 0x0102, []) ∧ decode [0x0D, 0x01, 0x02] = .ok (.jgt 0x0102, []) ∧
    decode [0x0E, 0x01, 0x02] = .ok (.jlt 0x0102, []) ∧ decode [0x04] = .ok (.endOp, []) := ⟨rfl, rfl, rfl, rfl, rfl, rfl⟩

theorem test_decode_increments :
    decode [0x0F] = .ok (.inca, []) ∧ decode [0x10] = .ok (.incb, []) ∧ decode [0x11] = .ok (.incx, []) ∧
    decode [0x12] = .ok (.incy, []) ∧ decode [0x13] = .ok (.incd, []) := ⟨rfl, rfl, rfl, rfl, rfl⟩

theorem test_decode_decrements :
    decode [0x14] = .ok (.deca, []) ∧ decode [0x15] = .ok (.decb, []) ∧ decode [0x16] = .ok (.decx, []) ∧
    decode [0x17] = .ok (.decy, []) ∧ decode [0x18] = .ok (.decd, []) := ⟨rfl, rfl, rfl, rfl, rfl⟩

theorem test_decode_refuses_by_name :
    decode [0x00] = .error (.unknownOpcode 0) ∧ decode [0x19] = .error (.unknownOpcode 0x19) ∧
    decode [0x21] = .error (.unknownOpcode 0x21) ∧ decode [0x24] = .error (.unknownOpcode 0x24) ∧
    decode [0xFF] = .error (.unknownOpcode 0xFF) ∧ decode [] = .error .noOpcode ∧
    decode [0x02, 0xA0] = .error (.truncated 0x02 3) := ⟨rfl, rfl, rfl, rfl, rfl, rfl, rfl⟩

/-- Words numbered as the opcode table numbers them: the second byte is bits 15 to 8. -/
theorem test_decodeTableWord :
    decodeTableWord 24 0x00A002 = some (.ldx 0xA000) ∧ decodeTableWord 16 0x2A01 = some (.lda 0x2A) ∧
    decodeTableWord 8 0xFF04 = some .endOp ∧ decodeTableWord 8 0x19 = none := ⟨rfl, rfl, rfl, rfl⟩

/-! ## setReg: the source's examples S1, S2, S3 -/

theorem test_setReg_260 : ((loaded []).setReg .a 260).a = 4 ∧ ((loaded []).setReg .a 260).ovf = true := by decide
theorem test_setReg_minus_one : ((loaded []).setReg .a (-1)).a = 255 ∧ ((loaded []).setReg .a (-1)).ovf = false := by decide
theorem test_setReg_pair : ((loaded []).setReg .d 300).a = 1 ∧ ((loaded []).setReg .d 300).b = 44 := by decide

/-! ## One step of each instruction (95_test_vectors.md 2.1 to 2.6) -/

theorem test_lda : after (fun t => (t.a, t.b, t.ovf, t.pc)) { loaded [0x01, 0x2A] with b := 0x10, ovf := true }
    = some (0x2A, 0x10, false, 0x1002) := by decide
theorem test_ldb : after (fun t => (t.a, t.b, t.regD, t.pc)) { loaded [0x22, 0xFF] with a := 1 }
    = some (1, 0xFF, 0x01FF, 0x1002) := by decide
theorem test_ldx_high_byte_first : after (fun t => (t.x, t.pc)) (loaded [0x02, 0x00, 0xA0]) = some (0x00A0, 0x1003) := by decide
theorem test_ldy_keeps_flags : after (fun t => (t.y, flags t, t.pc)) { loaded [0x23, 0x12, 0x34] with neF := true, ltF := true }
    = some (0x1234, (false, true, true, false), 0x1003) := by decide
theorem test_sta_calls_the_handler_at_the_last_address :
    after (fun t => (t.readByte 0xA001, t.events.head?, t.pc)) { loaded [0x03] with a := 0x41, x := 0xA001 }
    = some (some 0x41, some (.handler (.device 1) 0xA001 0x41), 0x1001) := by decide
theorem test_sta_outside_the_range :
    after (fun t => (t.readByte 0xA002, t.events.length)) { loaded [0x03] with a := 0x41, x := 0xA002 }
    = some (some 0x41, 1) := by decide
theorem test_sta_out_of_range : faultOf { atTop 0x8000 [0x03] with x := 0x9000 } = some (.storeOutOfRange 0x9000) := by decide
theorem test_cmpa_less : after flags { loaded [0x05, 0x05] with a := 3 } = some (false, true, true, false) := by decide
theorem test_cmpa_unsigned : after flags { loaded [0x05, 0x7F] with a := 0x80 } = some (false, true, false, true) := by decide
theorem test_cmpb_equal : after flags { loaded [0x06, 0x00] with a := 7 } = some (true, false, false, false) := by decide
theorem test_cmpx_unsigned : after flags { loaded [0x07, 0x9F, 0xFF] with x := 0xA000 } = some (false, true, false, true) := by decide
theorem test_cmpy_greater : after flags { loaded [0x08, 0x00, 0x00] with y := 0xFFFF } = some (false, true, false, true) := by decide
theorem test_cmpd_pair : after flags { loaded [0x09, 0x00, 0xFF] with a := 1 } = some (false, true, false, true) := by decide
theorem test_cmpd_less : after (fun t => (flags t, t.ovf)) { loaded [0x09, 0x01, 0x00] with b := 255, ovf := true }
    = some ((false, true, true, false), true) := by decide
theorem test_jmp_from_start : after (fun t => t.pc) { loaded [0x0A, 0x00, 0x04] with start := 0x2000 } = some 0x2004 := by decide
theorem test_jmp_not_reduced : after (fun t => t.pc) (loaded [0x0A, 0xFF, 0xFF]) = some 0x10FFF := by decide
theorem test_jeq_taken : after (fun t => t.pc) { loaded [0x0B, 0x00, 0x0A] with eqF := true } = some 0x100A := by decide
theorem test_jne_tests_ne : after (fun t => t.pc) (loaded [0x0C, 0x00, 0x02]) = some 0x1003 := by decide
theorem test_jgt_taken : after (fun t => t.pc) { loaded [0x0D, 0x00, 0x00] with neF := true, gtF := true } = some 0x1000 := by decide
theorem test_jlt_not_on_greater : after (fun t => t.pc) { loaded [0x0E, 0x00, 0x02] with neF := true, gtF := true } = some 0x1003 := by decide
theorem test_inca_wraps : after (fun t => (t.a, t.b, t.ovf)) { loaded [0x0F] with a := 255, b := 7 } = some (0, 7, true) := by decide
theorem test_incb_no_carry : after (fun t => (t.a, t.b, t.ovf)) { loaded [0x10] with a := 1, b := 255 } = some (1, 0, true) := by decide
theorem test_incx_wraps : after (fun t => (t.x, t.ovf)) { loaded [0x11] with x := 0xFFFF } = some (0, true) := by decide
theorem test_incy : after (fun t => (t.y, t.ovf)) { loaded [0x12] with y := 0x00FF } = some (0x0100, false) := by decide
theorem test_incd_carries : after (fun t => (t.a, t.b, t.ovf)) { loaded [0x13] with a := 0x12, b := 0xFF } = some (0x13, 0, false) := by decide
theorem test_incd_wraps : after (fun t => (t.a, t.b, t.ovf)) { loaded [0x13] with a := 255, b := 255 } = some (0, 0, true) := by decide
theorem test_deca_wraps : after (fun t => (t.a, t.ovf)) { loaded [0x14] with ovf := true } = some (255, false) := by decide
theorem test_decb_no_borrow : after (fun t => (t.a, t.b)) { loaded [0x15] with a := 1 } = some (1, 255) := by decide
theorem test_decx_wraps : after (fun t => (t.x, t.ovf)) (loaded [0x16]) = some (0xFFFF, false) := by decide
theorem test_decy : after (fun t => t.y) { loaded [0x17] with y := 1 } = some 0 := by decide
theorem test_decd_borrows : after (fun t => (t.a, t.b)) { loaded [0x18] with a := 1 } = some (0, 255) := by decide
theorem test_decd_wraps : after (fun t => (t.a, t.b, t.ovf)) (loaded [0x18]) = some (255, 255, false) := by decide
theorem test_end : after (fun t => (t.outcome, t.pc, t.events)) (loaded [0x04]) = some (some (.haltEnd 0x1001), 0x1001, []) := by decide
theorem test_unknown_opcode : faultOf (loaded [0xFF]) = some (.unknownOpcode 0x1000 0xFF) := by decide
theorem test_fetch_out_of_range : faultOf (atTop 65536 [0x02, 0xA0]) = some (.fetchOutOfRange 0x10000) := by decide
theorem test_last_byte_executes : after (fun t => (t.a, t.pc)) (atTop 65536 [0x0F]) = some (1, 0x10000) := by decide
theorem test_notify_is_last :
    after (fun t => t.events) { loaded [0x03] with a := 1, x := 0xA000 } =
      after (fun t => [.handler (.device 1) 0xA000 1, .notify t.snapshot]) { loaded [0x03] with a := 1, x := 0xA000 } := by decide

/-! ## What the host asks: the first step after reset -/

theorem test_reset_runs_a_placed_word :
    (match step (State.reset.withFetchWord 24 0x3412FF02) with | .next t => t.x | _ => 0) = 0xFF12 := by decide
theorem test_reset_alone_halts : faultOf State.reset = some (.unknownOpcode 0 0) := by decide

/-! ## Loader, assembler, run (95_test_vectors.md 2.8, 2.9; 45_assembler.md R187) -/

theorem test_load : ((loadTextCommand "4233322000200204FF010904".toList (loaded [])).1,
    (loadTextCommand "4233322000200204FF010904".toList (loaded [])).2.pc,
    (loadTextCommand "4233322000200204FF010904".toList (loaded [])).2.readByte 0x2001) = (.loaded, 0x2002, some 0xFF) := by decide
theorem test_load_refusals :
    (loadTextCommand "4233".toList (loaded [])).1 = .badMagic ∧
    (loadTextCommand "4233321000".toList (loaded [])).1 = .refused .truncatedHeader ∧
    (loadTextCommand "42333210001000010".toList (loaded [])).1 = .refused .badHexText ∧
    (loadTextCommand "423332100010000a".toList (loaded [])).1 = .refused .badHexText ∧
    (loadTextCommand "423332FFFFFFFF0101".toList (loaded [])).1 = .refused .imageOutOfRange ∧
    (loadTextCommand "423332FFFFFFFF04".toList (loaded [])).1 = .loaded := by decide
theorem test_assemble_worked_example :
    assemble 4096 " LDA #0\nloop:\n INCA\n CMPA #5\n JNE @loop\n END".toList =
      .image [0x42, 0x33, 0x32, 0x10, 0x00, 0x10, 0x00, 0x01, 0x00, 0x0F, 0x05, 0x05, 0x0C, 0x00, 0x02, 0x04] := by decide
theorem test_assemble_failures :
    assemble 4096 " lda #1\nloop: INCA\nloop:\n LDA #256\n JMP @no\n END now".toList =
      .failed [.labelTrailingText 2, .duplicateLabel 3 "loop".toList, .unknownMnemonic 1 "lda".toList,
        .malformedOperand 4, .undefinedLabel 5 "no".toList, .malformedOperand 6] := by decide
theorem test_assemble_silent_cases :
    assemble 4096 "LDA #1\n STA X\n STA\n\tLDX #$a0\r\n".toList =
      .image [0x42, 0x33, 0x32, 0x10, 0x00, 0x10, 0x00, 0x00, 0x00, 0x02, 0x00, 0xA0] := by decide
theorem test_run_stops_late_or_at_once :
    (runCommand [⟨true, false⟩, ⟨true, false⟩] (loaded [0x0F])).1 = .stopped 0x1000 ∧
    (runCommand [⟨true, true⟩, ⟨true, false⟩] (loaded [0x0F])).1 = .stopped 0x1001 := by decide
theorem test_display_cell :
    displayCell { loaded [] with events := [.handler .display 0xA000 0x41, .handler .display 0xA001 7, .handler .display 0xA000 0x42] } 0 0
      = (some 0x42, some 7) := by decide

/-! ## Witnesses: for each obligation with hypotheses, a state and operands that meet them, clause by clause -/

theorem witness_DecodedBytesAreTheEncoding : decode [0x02, 0xA0, 0x00, 0x04] = .ok (.ldx 0xA000, [0x04]) := rfl

theorem witness_UnrecognisedOpcodesAreExactlyTheListed :
    (∀ op ∈ ([0x00, 0x19, 0x21, 0x24, 0xFF] : List Byte),
      op.toNat = 0 ∨ (0x19 ≤ op.toNat ∧ op.toNat ≤ 0x21) ∨ 0x24 ≤ op.toNat) ∧
    (∀ op ∈ ([0x01, 0x18, 0x22, 0x23] : List Byte),
      ¬ (op.toNat = 0 ∨ (0x19 ≤ op.toNat ∧ op.toNat ≤ 0x21) ∨ 0x24 ≤ op.toNat)) := by decide

theorem witness_FirstByteGivesTheLength : encode (.ldx 0xA000) = 0x02 :: [0xA0, 0x00] := rfl

theorem witness_MemReadIsBigEndian :
    65535 < (loaded []).cfg.memSize ∧ (loaded []).cfg.memSize ≤ 65536 ∧
    65534 + 1 < (loaded []).cfg.memSize ∧ 65535 + 1 = (loaded []).cfg.memSize := by decide

theorem witness_StepRunsTheDecodedInstruction :
    ((loaded [0x04]).bytesAtPc [0x04] ∧ decode [0x04] = .ok (.endOp, []) ∧ ∃ t, exec .endOp (loaded [0x04]) = .next t) ∧
    ((loaded [0x0F]).bytesAtPc [0x0F] ∧ decode [0x0F] = .ok (.inca, []) ∧ ∃ t, exec .inca (loaded [0x0F]) = .next t) ∧
    ((atTop 16 [0x03]).bytesAtPc [0x03] ∧ decode [0x03] = .ok (.sta, []) ∧
      exec .sta { atTop 16 [0x03] with x := 16 } = .fault (.storeOutOfRange 16)) :=
  ⟨⟨bytesAtPc_of_fetch (i := .endOp) rfl, rfl, _, rfl⟩, ⟨bytesAtPc_of_fetch (i := .inca) rfl, rfl, _, rfl⟩,
    bytesAtPc_of_fetch (i := .sta) rfl, rfl, rfl⟩

theorem witness_StepStopsInTheOrderOfItsReads :
    (atTop 65536 []).cfg.memSize ≤ (atTop 65536 []).pc ∧
    ((loaded [0xFF]).readByte (loaded [0xFF]).pc = some 0xFF ∧ layoutOf 0xFF = none) ∧
    ((atTop 65536 [0x01]).readByte (atTop 65536 [0x01]).pc = some 0x01 ∧ layoutOf 0x01 = some (.imm8 .lda) ∧
      1 < (Layout.imm8 .lda).length ∧ (atTop 65536 [0x01]).pc + 1 = (atTop 65536 [0x01]).cfg.memSize) ∧
    ((atTop 65536 [0x02, 0xA0]).readByte (atTop 65536 [0x02, 0xA0]).pc = some 0x02 ∧ layoutOf 0x02 = some (.imm16 .ldx) ∧
      2 < (Layout.imm16 .ldx).length ∧ (atTop 65536 [0x02, 0xA0]).pc + 2 = (atTop 65536 [0x02, 0xA0]).cfg.memSize) ∧
    ((atTop 16 [0x03]).readByte (atTop 16 [0x03]).pc = some 0x03 ∧ (atTop 16 [0x03]).cfg.memSize ≤ (16 : Half).toNat) :=
  ⟨by decide, ⟨by decide, rfl⟩, ⟨by decide, rfl, by decide, by decide⟩, ⟨by decide, rfl, by decide, by decide⟩, by decide, by decide⟩

/-- Also for `AbnormalEndLeavesTheState`. -/
theorem witness_StepStopsForNoOtherReason :
    step (atTop 65536 [0x02, 0xA0]) = .fault (.fetchOutOfRange 0x10000) ∧
    step (loaded [0xFF]) = .fault (.unknownOpcode 0x1000 0xFF) ∧
    step { atTop 16 [0x03] with x := 16 } = .fault (.storeOutOfRange 16) := ⟨rfl, rfl, rfl⟩

theorem witness_UnrecognisedOpcodeHaltsAndRepeats :
    (loaded [0x21]).readByte (loaded [0x21]).pc = some 0x21 ∧
    ((0x21 : Byte).toNat = 0 ∨ (0x19 ≤ (0x21 : Byte).toNat ∧ (0x21 : Byte).toNat ≤ 0x21) ∨ 0x24 ≤ (0x21 : Byte).toNat) := by
  decide

theorem witness_SetRegWrapsAndSetsOverflow :
    (∃ t, exec (.cmpa 1) (loaded []) = .next t) ∧ (∃ t, exec .inca { loaded [] with a := 255 } = .next t) ∧
    Reg.x ≠ .a ∧ Reg.x ≠ .b ∧ Reg.x ≠ .d ∧ Reg.x ≠ .y ∧ Reg.a ≠ .x := ⟨⟨_, rfl⟩, ⟨_, rfl⟩, by decide⟩

theorem witness_StaWritesThroughX :
    ({ atTop 16 [] with x := 15 } : State).x.toNat < (atTop 16 []).cfg.memSize ∧
    (atTop 16 []).cfg.memSize ≤ ({ atTop 16 [] with x := 16 } : State).x.toNat := by decide

theorem witness_StaChangesOneByteOnly :
    ({ loaded [0x03] with a := 1 } : State).mem.wf = true ∧ (∃ t, exec .sta { loaded [0x03] with a := 1 } = .next t) ∧
    0x1000 ≠ ({ loaded [0x03] with a := 1 } : State).x.toNat := ⟨by decide, ⟨_, rfl⟩, by decide⟩

theorem witness_MappedRangesAreCalledInOrder :
    ((0xA001 : Int) ≤ (0xA001 : Nat) ∧ ((0xA001 : Nat) : Int) ≤ 0xA001) ∧
    ¬ ((0xA000 : Int) ≤ (0xA002 : Nat) ∧ ((0xA002 : Nat) : Int) ≤ 0xA001) := by decide

theorem witness_MemoryReadsWhatWasWritten :
    Memory.wf [(3, 1), (7, 2)] = true ∧ Memory.wf (Memory.set [(3, 1)] 7 2) = true ∧
    ∀ a, Memory.get [(3, 1), (7, 2)] a = Memory.get (Memory.set [(3, 1)] 7 2) a := ⟨by decide, by decide, fun _ => rfl⟩

theorem witness_StoreIsSeenByTheNextFetch :
    let s : State := { loaded [0x03, 0xFF] with a := 0x04, x := 0x1001 }
    s.mem.wf = true ∧ s.readByte s.pc = some 0x03 ∧ s.x.toNat = s.pc + 1 ∧ encode .endOp = [s.a] ∧ ∃ t, step s = .next t :=
  ⟨by decide, by decide, by decide, rfl, _, rfl⟩

theorem witness_DisplayCellTakesTheStoredByte :
    let c : Config := { testConfig with periph := [] }
    let s : State := { State.initial c.mapDisplay with a := 7, x := 0xA001 }
    c.periph = [] ∧ s.cfg = c.mapDisplay ∧ 0 < c.display.width * c.display.height ∧
    (s.x.toNat = charAddress s.cfg.display 0 ∨ s.x.toNat = attrAddress s.cfg.display 0) ∧ ∃ t, exec .sta s = .next t :=
  ⟨rfl, rfl, by decide, by decide, _, rfl⟩

theorem witness_ComparesRewriteAllFourFlags : (5 : Nat) = 5 ∧ (3 : Nat) < 5 ∧ (9 : Nat) > 5 := by decide

theorem witness_DecrementUndoesIncrement :
    (Instr.incd, Instr.decd) ∈ [(.inca, .deca), (.incb, .decb), (.incx, .decx), (.incy, .decy), (.incd, .decd)] ∧
    (∃ t u, exec .incd { loaded [] with a := 255, b := 255 } = .next t ∧ exec .decd t = .next u) ∧
    (∃ t u, exec .decd (loaded []) = .next t ∧ exec .incd t = .next u) :=
  ⟨by decide, ⟨_, _, rfl, rfl⟩, _, _, rfl, rfl⟩

theorem witness_EndHaltsPastItsByte :
    (loaded [0x04, 0x0F]).readByte (loaded [0x04, 0x0F]).pc = some 0x04 ∧
    (atTop 65536 []).cfg.memSize ≤ (atTop 65536 []).pc ∧
    ∃ t, step (loaded [0x04, 0x0F]) = .next t ∧ t.bytesAtPc (encode .inca) :=
  ⟨by decide, by decide, _, rfl, bytesAtPc_of_fetch rfl⟩

theorem witness_InstructionsWriteOnlyTheirRow :
    (∃ t, exec (.cmpa 1) (loaded []) = .next t) ∧ (∃ t, exec .incd (loaded []) = .next t) ∧
    destination (.cmpa 1) = none ∧ destination .incd = some .d ∧ isCompare .incd = false ∧
    Instr.incd ≠ .sta ∧ Instr.incd ≠ .endOp := ⟨⟨_, rfl⟩, ⟨_, rfl⟩, by decide⟩

theorem witness_CarryIsNeitherReadNorWritten :
    (∃ t, exec .incb { loaded [] with b := 255 } = .next t) ∧ (loaded [0x10]).carry = false ∧
    ∃ t, step (loaded [0x10]) = .next t := ⟨⟨_, rfl⟩, rfl, _, rfl⟩

theorem witness_OverflowIsWrittenBySetRegAlone :
    (-1 : Int) < 0 ∧ (∃ t, exec .sta (loaded []) = .next t) ∧ (∃ t, exec (.ldy 0xFFFF) (loaded []) = .next t) ∧
    (∃ t, exec .incd { loaded [] with a := 255, b := 255 } = .next t) ∧ ∃ t, exec .decd (loaded []) = .next t :=
  ⟨by decide, ⟨_, rfl⟩, ⟨_, rfl⟩, ⟨_, rfl⟩, _, rfl⟩

theorem witness_ObserverIsNotifiedAfterEveryContinue :
    (∃ t, step (loaded [0x04]) = .next t) ∧ (∃ t, step { loaded [0x03] with x := 0xA000 } = .next t) :=
  ⟨⟨_, rfl⟩, ⟨_, rfl⟩⟩

theorem witness_OutputsNeverInfluenceAStep :
    (loaded [0x0F]).withoutOutputs = { loaded [0x0F] with outcome := some .continued }.withoutOutputs ∧
    (∃ t, step (loaded [0x0F]) = .next t) ∧ step (loaded [0xFF]) = .fault (.unknownOpcode 0x1000 0xFF) :=
  ⟨rfl, ⟨_, rfl⟩, rfl⟩

/-- Also for `CommandsKeepTheInvariant`. -/
theorem witness_StepKeepsTheInvariant : (loaded [0x0F]).Inv ∧ ∃ t, step (loaded [0x0F]) = .next t :=
  ⟨⟨rfl, ⟨by decide, by decide⟩, by decide, rfl⟩, _, rfl⟩

theorem witness_ComparisonFlagsStayLegal :
    ({ loaded [0x05, 0x05] with neF := true, gtF := true } : State).flagsLegal = true ∧
    (∃ t, step { loaded [0x05, 0x05] with neF := true, gtF := true } = .next t) ∧
    isCompare (.cmpa 5) = true ∧ ∃ t, exec (.cmpa 5) (loaded []) = .next t := ⟨rfl, ⟨_, rfl⟩, rfl, _, rfl⟩

theorem witness_InitClearsTheMachine : 65535 < (loaded []).cfg.memSize := by decide

theorem witness_LoadPlacesTheCode :
    (loaded [0x04]).mem.wf = true ∧ (0xFFFF : Half).toNat + [(0x04 : Byte)].length ≤ (loaded [0x04]).cfg.memSize ∧
    [(0x04 : Byte)][0]? = some 0x04 ∧ (0x1000 < (0xFFFF : Half).toNat) := by decide

theorem witness_FailedLoadChangesNothing :
    (loadTextCommand "4233".toList (loaded [])).1 ≠ .loaded ∧
    fromHexText "0".toList = none ∧
    (fromHexText "423333".toList = some [0x42, 0x33, 0x33] ∧ [0x42, 0x33, 0x33].take 3 ≠ [0x42, 0x33, (0x32 : Byte)]) ∧
    (fromHexText "423332100010".toList = some [0x42, 0x33, 0x32, 0x10, 0x00, 0x10] ∧
      [0x42, 0x33, 0x32, 0x10, 0x00, 0x10].length < 7) ∧
    (fromHexText "423332FFFFFFFF0101".toList = some (imageOf 0xFFFF 0xFFFF [1, 1]) ∧
      (loaded []).cfg.memSize < (0xFFFF : Half).toNat + [(1 : Byte), 1].length) := by decide

theorem witness_StopTakesEffectWithinOneStep :
    (∃ t, runCommand (undisturbed 1) (loaded [0x0F, 0x0F]) = (.running false, t) ∧
      ∃ u, stepCommand t = (some .continued, u)) ∧
    (∃ t, runCommand (undisturbed 1) (loaded [0x0F, 0x04]) = (.running false, t) ∧
      ∃ u, stepCommand t = (some (.haltEnd 0x1002), u)) ∧
    StepOutcome.haltEnd 0x1002 ≠ .continued ∧
    (Boundary.mk true true).stopReq = true ∧ (Boundary.mk true false).late = false :=
  ⟨⟨_, rfl, _, rfl⟩, ⟨_, rfl, _, rfl⟩, by decide⟩

theorem witness_RunRepeatsStepsUntilAHalt :
    ∃ t u, runCommand (undisturbed 1) (loaded [0x0F, 0xFF]) = (.running false, t) ∧
      stepCommand t = (some (.haltUnknown 0x1001 0xFF), u) := ⟨_, _, rfl, rfl⟩

theorem witness_PassesAgreeOnEveryOffset :
    asmDiags (sourceLines "l:\n JMP @m\nm:".toList) = [] ∧
    sourceLines "l:\n JMP @m\nm:".toList =
      [(1, .label "l".toList []), (2, .instruction "JMP".toList ["@m".toList])] ++ (3, .label "m".toList []) :: [] := by decide

theorem witness_AssembledImageIsHeaderAndCode :
    assemble 4096 "".toList = .image [0x42, 0x33, 0x32, 0x10, 0x00, 0x10, 0x00] ∧
    (∀ l ∈ sourceLines "".toList, l.2 = .ignored) ∧
    assemble 4096 " LDA #7\n STA ,X".toList = .image [0x42, 0x33, 0x32, 0x10, 0x00, 0x10, 0x00, 0x01, 0x07, 0x03] ∧
    sourceLines " LDA #7\n STA ,X".toList =
      [(1, .instruction "LDA".toList ["#7".toList])] ++ (2, .instruction "STA".toList [",X".toList]) :: [] ∧
    assemble 4096 " JMP @no".toList = .failed [.undefinedLabel 1 "no".toList] := by decide

/-- The statement's premises at the limits of their ranges, one mnemonic of each class. -/
theorem witness_InstructionLinesEncodeAsTheTable :
    ("LDB".toList, (0x22 : Byte)) ∈ [("LDA".toList, (0x01 : Byte)), ("LDB".toList, 0x22)] ∧
    readImmediate "#255".toList = some 255 ∧ readImmediate "#$100".toList = some 256 ∧
    readImmediate "#65535".toList = some 65535 ∧ readImmediate "#$10000".toList = some 65536 ∧
    readImmediate "#".toList = none ∧
    isIdentifier "l_1".toList = true ∧ [("l_1".toList, 65535)].lookup "l_1".toList = some 65535 ∧
    [("l_1".toList, 65536)].lookup "l_1".toList = some 65536 ∧
    ([] : List (List Char × Nat)).lookup "l_1".toList = none ∧
    ["X".toList] ≠ [",X".toList] ∧ ["now".toList] ≠ [] ∧ ["@no".toList, "x".toList].length ≠ 1 ∧
    ("JLT".toList, (0x0E : Byte)) ∈ [("JGT".toList, (0x0D : Byte)), ("JLT".toList, 0x0E)] ∧
    ("DECD".toList, (0x18 : Byte)) ∈ [("END".toList, (0x04 : Byte)), ("DECD".toList, 0x18)] ∧
    ("CMPD".toList, (0x09 : Byte)) ∈ [("LDX".toList, (0x02 : Byte)), ("CMPD".toList, 0x09)] ∧
    "lda".toList ∉ mnemonics.map Prod.fst := by decide

/-- The marked choice of log 19: with surplus tokens the label is not looked up. -/
theorem test_jump_with_surplus_tokens :
    encodeLine [] 1 "JMP".toList ["@no".toList, "x".toList] = .error (.malformedOperand 1) := by decide

/-- A token that is no `@identifier`. -/
theorem witness_InstructionLinesEncodeAsTheTable_noLabel :
    ∀ l, isIdentifier l = true → "#5".toList ≠ '@' :: l := fun _ _ h => absurd (List.cons.inj h).1 (by decide)

/-- The code lies strictly inside memory: addresses below it and at and after its end are witnesses of the last clause. -/
theorem witness_BootPlacesTheAssembledProgram :
    assemble (loaded []).cfg.origin " END".toList = .image (imageOf (loaded []).cfg.origin (loaded []).cfg.origin [0x04]) ∧
    (loaded []).cfg.origin.toNat + [(0x04 : Byte)].length ≤ (loaded []).cfg.memSize ∧
    4095 < (loaded []).cfg.origin.toNat ∧ (loaded []).cfg.origin.toNat + [(0x04 : Byte)].length ≤ 4097 := by decide

end Sys2Proof.Tests
end

/-! ## The shapes an instruction's whole effect can have, and what no instruction reads: said once of all 26. -/

namespace Sys2Proof.Machine

/-- `s` with other values in the fields that no instruction reads: OVF, CARRY and the two output fields
(10_state.md R25, R26, R32). -/
def State.withUnread (s : State) (ovf carry : Bool) (events : List Event) (outcome : Option StepOutcome) : State :=
  { s with ovf := ovf, carry := carry, events := events, outcome := outcome }

/-- `f` reads none of the fields that `withUnread` replaces. -/
def IgnoresUnread {α : Type} (f : State → α) : Prop :=
  ∀ s ovf carry events outcome, f (s.withUnread ovf carry events outcome) = f s

/-- The rows of the read and write table (10_state.md R28), by what an instruction writes beside `pc`: one register through
setReg, the comparison flags, nothing, memory, or the reported outcome. -/
inductive InstrEffect (i : Instr) : Prop where
  | write (r : Reg) (value : State → Int) (dest : destination i = some r) (cmp : isCompare i = false)
      (reads : IgnoresUnread value)
      (eq : ∀ s, exec i s = .next ((s.advance i.length).setReg r (value s)))
  | compare (r : Reg) (imm : Nat) (dest : destination i = none) (cmp : isCompare i = true)
      (eq : ∀ s, exec i s = .next ((s.advance i.length).compare (s.readReg r) imm))
  | jump (target : State → Nat) (dest : destination i = none) (cmp : isCompare i = false) (running : i ≠ .endOp)
      (reads : IgnoresUnread target)
      (eq : ∀ s, exec i s = .next { s with pc := target s })
  | store (eq : i = .sta)
  | halt (eq : i = .endOp)

namespace InstrEffect

variable {i : Instr} (r : Reg)

theorem of_loadImm (n : Nat) (dest : destination i = some r) (cmp : isCompare i = false)
    (eq : exec i = loadImm r i.length n) : InstrEffect i :=
  .write r (fun _ => n) dest cmp (fun _ _ _ _ _ => rfl) (fun s => congrFun eq s)

theorem of_increment (dest : destination i = some r) (cmp : isCompare i = false) (len : i.length = 1)
    (eq : exec i = increment r) : InstrEffect i :=
  .write r (fun s => s.readReg r + 1) dest cmp (fun _ _ _ _ _ => by cases r <;> rfl) (fun s => len ▸ congrFun eq s)

theorem of_decrement (dest : destination i = some r) (cmp : isCompare i = false) (len : i.length = 1)
    (eq : exec i = decrement r) : InstrEffect i :=
  .write r (fun s => s.readReg r - 1) dest cmp (fun _ _ _ _ _ => by cases r <;> rfl) (fun s => len ▸ congrFun eq s)

theorem of_jumpIf (taken : State → Bool) (off : Half) (dest : destination i = none) (cmp : isCompare i = false)
    (running : i ≠ .endOp) (reads : IgnoresUnread taken) (eq : exec i = fun s => jumpIf (taken s) off s) : InstrEffect i :=
  .jump (fun s => if taken s then s.jumpTarget off else s.pc + 3) dest cmp running
    (fun s ovf carry events outcome => by beta_reduce; rw [reads]; rfl) (fun s => congrFun eq s)

end InstrEffect

open InstrEffect in
/-- Every instruction has one of the five effects. -/
theorem instrEffect (i : Instr) : InstrEffect i := by
  cases i with
  | lda imm => exact of_loadImm .a imm.toNat rfl rfl rfl
  | ldb imm => exact of_loadImm .b imm.toNat rfl rfl rfl
  | ldx imm => exact of_loadImm .x imm.toNat rfl rfl rfl
  | ldy imm => exact of_loadImm .y imm.toNat rfl rfl rfl
  | sta => exact .store rfl
  | endOp => exact .halt rfl
  | cmpa imm => exact .compare .a imm.toNat rfl rfl fun _ => rfl
  | cmpb imm => exact .compare .b imm.toNat rfl rfl fun _ => rfl
  | cmpx imm => exact .compare .x imm.toNat rfl rfl fun _ => rfl
  | cmpy imm => exact .compare .y imm.toNat rfl rfl fun _ => rfl
  | cmpd imm => exact .compare .d imm.toNat rfl rfl fun _ => rfl
  | jmp off => exact of_jumpIf (fun _ => true) off rfl rfl nofun (fun _ _ _ _ _ => rfl) rfl
  | jeq off => exact of_jumpIf State.eqF off rfl rfl nofun (fun _ _ _ _ _ => rfl) rfl
  | jne off => exact of_jumpIf State.neF off rfl rfl nofun (fun _ _ _ _ _ => rfl) rfl
  | jgt off => exact of_jumpIf State.gtF off rfl rfl nofun (fun _ _ _ _ _ => rfl) rfl
  | jlt off => exact of_jumpIf State.ltF off rfl rfl nofun (fun _ _ _ _ _ => rfl) rfl
  | inca => exact of_increment .a rfl rfl rfl rfl
  | incb => exact of_increment .b rfl rfl rfl rfl
  | incx => exact of_increment .x rfl rfl rfl rfl
  | incy => exact of_increment .y rfl rfl rfl rfl
  | incd => exact of_increment .d rfl rfl rfl rfl
  | deca => exact of_decrement .a rfl rfl rfl rfl
  | decb => exact of_decrement .b rfl rfl rfl rfl
  | decx => exact of_decrement .x rfl rfl rfl rfl
  | decy => exact of_decrement .y rfl rfl rfl rfl
  | decd => exact of_decrement .d rfl rfl rfl rfl

/-- Only END reports an outcome in its own rule. -/
theorem exec_outcome_of_ne_endOp {i : Instr} {s t : State} (hi : i ≠ .endOp) (h : exec i s = .next t) :
    t.outcome = s.outcome := by
  cases instrEffect i with
  | write r value _ _ _ eq => cases (eq s).symm.trans h; simp
  | compare r imm _ _ eq => cases (eq s).symm.trans h; simp
  | jump target _ _ _ _ eq => cases (eq s).symm.trans h; rfl
  | store eq => subst eq; rw [(exec_sta_next h).2]
  | halt eq => exact absurd eq hi

/-- No instruction reads OVF, CARRY or the outputs: with other values there it completes alike. CARRY stays as given, OVF too
where there is no destination, and the instruction's own events and outcome are the same. -/
theorem exec_withUnread {i : Instr} {s t : State} (h : exec i s = .next t) (ovf carry : Bool) (events : List Event)
    (outcome : Option StepOutcome) :
    ∃ es, t.events = s.events ++ es ∧
      exec i (s.withUnread ovf carry events outcome) =
        .next (t.withUnread (if destination i = none then ovf else t.ovf) carry (events ++ es)
          (if i = .endOp then t.outcome else outcome)) := by
  cases instrEffect i with
  | write r value dest _ reads eq =>
    have hne : i ≠ .endOp := by rintro rfl; cases dest
    cases (eq s).symm.trans h
    refine ⟨[], by simp, ?_⟩
    rw [eq, reads, if_neg (by simp [dest]), if_neg hne, List.append_nil]
    cases r <;> rfl
  | compare r imm dest cmp eq =>
    have hne : i ≠ .endOp := by rintro rfl; cases cmp
    cases (eq s).symm.trans h
    refine ⟨[], by simp, ?_⟩
    rw [eq, if_pos dest, if_neg hne, List.append_nil]
    cases r <;> rfl
  | jump target dest _ running reads eq =>
    cases (eq s).symm.trans h
    refine ⟨[], (List.append_nil _).symm, ?_⟩
    rw [eq, reads, if_pos dest, if_neg running, List.append_nil]
    rfl
  | store eq =>
    subst eq
    obtain ⟨hx, rfl⟩ := exec_sta_next h
    exact ⟨_, rfl, if_neg (Nat.not_le.2 hx)⟩
  | halt eq =>
    subst eq
    cases h
    exact ⟨[], (List.append_nil _).symm, by rw [List.append_nil]; rfl⟩

end Sys2Proof.Machine

/-! ## The invariant of the machine, kept by every instruction, step and command. -/

namespace Sys2Proof.Machine

theorem Config.memSize_le {c : Config} (h : c.wellFormed = true) : c.memSize ≤ 65536 := by
  simp only [Config.wellFormed, Bool.and_eq_true, decide_eq_true_eq] at h
  exact h.2

/-- The invariant speaks of the configuration, the memory, `pc` and CARRY alone. -/
theorem State.Inv.of_eq {s t : State} (h : s.Inv) (hcfg : t.cfg = s.cfg) (hmem : t.mem = s.mem) (hpc : t.pc = s.pc)
    (hcarry : t.carry = s.carry) : t.Inv where
  cfgLegal := hcfg ▸ h.cfgLegal
  memLegal := by simpa only [State.memInv, hcfg, hmem] using h.memLegal
  pcBound := hpc ▸ h.pcBound
  carryZero := hcarry ▸ h.carryZero

/-- An instruction keeps the memory canonical and inside `MEM_SIZE`. -/
theorem exec_memInv {i : Instr} {s t : State} (hs : s.memInv) (h : exec i s = .next t) : t.memInv := by
  by_cases hi : i = .sta
  · subst hi
    obtain ⟨hx, rfl⟩ := exec_sta_next h
    exact ⟨Memory.wf_set hs.1 _ _, Memory.within_set hx hs.2⟩
  · obtain ⟨hcfg, -, -⟩ := exec_keeps h
    obtain ⟨hmem, -⟩ := exec_mem_of_ne_sta hi h
    simpa only [State.memInv, hcfg, hmem] using hs

/-- From a `pc` inside memory, an instruction leaves `pc` in `0..131070`: three bytes further at most, or at the sum of two
16-bit values. -/
theorem exec_pc_le {i : Instr} {s t : State} (hpc : s.pc < 65536) (h : exec i s = .next t) : t.pc ≤ 131070 := by
  have hlen := Instr.length_le i
  have hstart := s.start.isLt
  rcases exec_pc h with hnext | ⟨off, hjump⟩
  · omega
  · have hoff := off.isLt
    omega

theorem exec_inv {i : Instr} {s t : State} (hs : s.Inv) (hpc : s.pc < s.cfg.memSize) (h : exec i s = .next t) : t.Inv := by
  obtain ⟨hcfg, -, hcarry⟩ := exec_keeps h
  have hsize := Config.memSize_le hs.cfgLegal
  exact ⟨hcfg ▸ hs.cfgLegal, exec_memInv hs.memLegal h, exec_pc_le (by omega) h, hcarry ▸ hs.carryZero⟩

/-- Settles O33: an instruction that was fetched has its `pc` inside memory, and the end of the step writes outputs only. -/
theorem stepKeepsTheInvariant : Obligations.StepKeepsTheInvariant := by
  intro s t hs h
  obtain ⟨i, u, hfetch, hexec, rfl⟩ := step_next h
  exact (exec_inv hs (fetch_ok_pc hfetch) hexec).of_eq (finishStep_cfg u i) (finishStep_mem u i) (finishStep_pc u i)
    (finishStep_carry u i)

theorem State.initial_inv {c : Config} (h : c.wellFormed = true) : (State.initial c).Inv :=
  ⟨h, ⟨rfl, rfl⟩, Nat.zero_le _, rfl⟩

/-- `load` of any text either copies a code that fits, or leaves everything but the events. -/
theorem loadTextCommand_state (text : List Char) (s : State) :
    (∃ startAddr entryAddr code, codeFits s.cfg.memSize startAddr.toNat code = true ∧
      (loadTextCommand text s).2 = s.loadCode startAddr entryAddr code) ∨
    ∃ es, (loadTextCommand text s).2 = { s with events := es } := by
  unfold loadTextCommand
  split
  · unfold loadCommand
    split
    · unfold loadBody
      split
      · split
        · next hfits => exact .inl ⟨_, _, _, hfits, rfl⟩
        · exact .inr ⟨_, rfl⟩
      · exact .inr ⟨_, rfl⟩
    · exact .inr ⟨_, rfl⟩
  · exact .inr ⟨_, rfl⟩

/-- The loader's copy of a code that fits adds no entry outside memory. -/
theorem Memory.within_copy_of_codeFits {size a : Nat} {code : List Byte} {m : Memory} (hm : m.within size = true)
    (hfits : codeFits size a code = true) : (m.copy a code).within size = true := by
  cases code with
  | nil => exact hm
  | cons v vs =>
    simp only [codeFits, List.isEmpty_cons, Bool.false_or, decide_eq_true_eq] at hfits
    exact Memory.within_copy _ a hfits hm

theorem State.Inv.loadCode {s : State} (hs : s.Inv) {startAddr : Half} (entryAddr : Half) {code : List Byte}
    (hfits : codeFits s.cfg.memSize startAddr.toNat code = true) : (s.loadCode startAddr entryAddr code).Inv where
  cfgLegal := hs.cfgLegal
  memLegal := ⟨Memory.wf_copy code _ hs.memLegal.1, Memory.within_copy_of_codeFits hs.memLegal.2 hfits⟩
  pcBound := by
    have hentry := entryAddr.isLt
    change entryAddr.toNat ≤ 131070
    omega
  carryZero := hs.carryZero

theorem loadTextCommand_inv {s : State} (hs : s.Inv) (text : List Char) : (loadTextCommand text s).2.Inv := by
  rcases loadTextCommand_state text s with ⟨startAddr, entryAddr, code, hfits, heq⟩ | ⟨es, heq⟩
  · exact heq ▸ hs.loadCode entryAddr hfits
  · exact heq ▸ hs.of_eq rfl rfl rfl rfl

theorem stepCommand_inv {s : State} (hs : s.Inv) : (stepCommand s).2.Inv := by
  unfold stepCommand
  split
  · next t h => exact stepKeepsTheInvariant s t hs h
  · exact hs.of_eq rfl rfl rfl rfl
  · exact hs

/-- A run keeps the invariant, by induction on its boundaries: each stops the run or does one step command. -/
theorem runLoop_inv (bs : List Boundary) : ∀ (pending : Bool) {s : State}, s.Inv → (runLoop bs pending s).2.Inv := by
  induction bs with
  | nil => exact fun _ _ hs => hs
  | cons b bs ih =>
    intro pending s hs
    have hstep := stepCommand_inv hs
    unfold runLoop
    split
    · exact hs
    · generalize stepCommand s = r at hstep
      rcases r with ⟨_ | _ | _, t⟩
      case cons.isFalse.some.continued => exact ih _ hstep
      all_goals exact hstep

/-- Settles O35: init starts afresh with a legal configuration, the other commands are loads and steps. -/
theorem commandsKeepTheInvariant : Obligations.CommandsKeepTheInvariant := fun _ hs =>
  ⟨(State.initial_inv hs.cfgLegal).of_eq rfl rfl rfl rfl, loadTextCommand_inv hs, stepCommand_inv hs,
    fun bs => runLoop_inv bs false hs⟩

end Sys2Proof.Machine

/-! ## What setReg leaves in each register, and that an instruction writes registers through it alone. -/

namespace Sys2Proof.Machine

theorem pairValue_le (a b : Byte) : pairValue a b ≤ 65535 :=
  Nat.le_of_lt_succ (pairValue_lt a b)

theorem State.readReg_lt (s : State) (r : Reg) : s.readReg r < 2 ^ r.width := by
  cases r with
  | a => exact s.a.isLt
  | b => exact s.b.isLt
  | x => exact s.x.isLt
  | y => exact s.y.isLt
  | d => exact pairValue_lt s.a s.b

/-! The registers beside the destination; a write of D is a write of A and of B. -/

variable (s : State) {r : Reg} (v : Int)

theorem State.setReg_a_of_ne (ha : r ≠ .a) (hd : r ≠ .d) : (s.setReg r v).a = s.a := by
  cases r with
  | a => exact absurd rfl ha
  | d => exact absurd rfl hd
  | _ => rfl

theorem State.setReg_b_of_ne (hb : r ≠ .b) (hd : r ≠ .d) : (s.setReg r v).b = s.b := by
  cases r with
  | b => exact absurd rfl hb
  | d => exact absurd rfl hd
  | _ => rfl

theorem State.setReg_x_of_ne (hx : r ≠ .x) : (s.setReg r v).x = s.x := by
  cases r with
  | x => exact absurd rfl hx
  | _ => rfl

theorem State.setReg_y_of_ne (hy : r ≠ .y) : (s.setReg r v).y = s.y := by
  cases r with
  | y => exact absurd rfl hy
  | _ => rfl

/-! The wrapped value of a write of D, split into its two bytes (10_state.md R21). -/

theorem State.setReg_d_a_toNat : ((s.setReg .d v).a.toNat : Int) = v % 65536 / 256 := by
  have hlt := wrap_lt 16 v
  have hcast := wrap_cast 16 v
  rw [State.setReg_eq, State.writeReg_d_a, BitVec.toNat_ofNat, show Reg.d.width = 16 from rfl]
  omega

theorem State.setReg_d_b_toNat : ((s.setReg .d v).b.toNat : Int) = v % 65536 % 256 := by
  have hcast := wrap_cast 16 v
  rw [State.setReg_eq, State.writeReg_d_b, BitVec.toNat_ofNat, show Reg.d.width = 16 from rfl]
  omega

theorem State.readReg_setReg_d : ((s.setReg .d v).readReg .d : Int) = v % 65536 := by
  have ha := State.setReg_d_a_toNat s v
  have hb := State.setReg_d_b_toNat s v
  change ((pairValue (s.setReg .d v).a (s.setReg .d v).b : Nat) : Int) = _
  rw [pairValue]
  omega

/-- A wrapped value fits the bit vector that stores it. -/
theorem ofNat_wrap_cast (w : Nat) : ((BitVec.ofNat w (wrap w v)).toNat : Int) = v % 2 ^ w := by
  rw [BitVec.toNat_ofNat, Nat.mod_eq_of_lt (wrap_lt w v), wrap_cast]

theorem State.readReg_setReg (r : Reg) : ((s.setReg r v).readReg r : Int) = v % 2 ^ r.width := by
  cases r with
  | d => exact State.readReg_setReg_d s v
  | a => exact ofNat_wrap_cast v 8
  | b => exact ofNat_wrap_cast v 8
  | x => exact ofNat_wrap_cast v 16
  | y => exact ofNat_wrap_cast v 16

/-- `setReg` writes nothing but registers and OVF. -/
theorem State.setReg_frame (r : Reg) :
    { s.setReg r v with a := s.a, b := s.b, x := s.x, y := s.y, ovf := s.ovf } = s := by
  cases r <;> rfl

/-- Settles O12: both halves of a write of D are taken of the value wrapped to 16 bits. -/
theorem pairIsAViewOfItsHalves : Obligations.PairIsAViewOfItsHalves := fun s =>
  ⟨s.regD_toNat, rfl, pairValue_le s.a s.b, fun v =>
    ⟨s.setReg_d_a_toNat v, s.setReg_d_b_toNat v, s.readReg_setReg_d v⟩⟩

/-- An instruction that has no destination leaves the registers and OVF; the others are one `setReg` beside `pc`. -/
theorem exec_registers {i : Instr} {s t : State} (h : exec i s = .next t) :
    (t.a = s.a ∧ t.b = s.b ∧ t.x = s.x ∧ t.y = s.y ∧ t.ovf = s.ovf) ∧ destination i = none ∨
    ∃ r v, destination i = some r ∧ t = { s.setReg r v with pc := s.pc + i.length } := by
  cases instrEffect i with
  | write r value dest _ _ eq =>
    cases (eq s).symm.trans h
    exact .inr ⟨r, value s, dest, State.advance_setReg s _ r _⟩
  | compare r imm dest _ eq =>
    cases (eq s).symm.trans h
    exact .inl ⟨⟨rfl, rfl, rfl, rfl, rfl⟩, dest⟩
  | jump target dest _ _ _ eq =>
    cases (eq s).symm.trans h
    exact .inl ⟨⟨rfl, rfl, rfl, rfl, rfl⟩, dest⟩
  | store eq =>
    subst eq
    obtain ⟨-, rfl⟩ := exec_sta_next h
    exact .inl ⟨⟨rfl, rfl, rfl, rfl, rfl⟩, rfl⟩
  | halt eq =>
    subst eq
    cases h
    exact .inl ⟨⟨rfl, rfl, rfl, rfl, rfl⟩, rfl⟩

/-- Settles O13: the rules of `setReg` above, and the two kinds of instruction. -/
theorem setRegWrapsAndSetsOverflow : Obligations.SetRegWrapsAndSetsOverflow := by
  refine ⟨fun s r v => ⟨s.setReg_ovf r v, s.readReg_setReg v r, s.setReg_a_of_ne v, s.setReg_b_of_ne v,
    s.setReg_x_of_ne v, s.setReg_y_of_ne v, ?_, s.setReg_frame v r⟩, fun i s t h => ?_⟩
  · rintro rfl
    exact ⟨s.setReg_d_a_toNat v, s.setReg_d_b_toNat v⟩
  · rcases exec_registers h with ⟨hkept, -⟩ | ⟨r, v, -, hset⟩
    · exact .inl hkept
    · exact .inr ⟨r, v, hset⟩

end Sys2Proof.Machine

/-! ## Two canonical memories that read alike are equal. -/

namespace Sys2Proof.Machine

theorem Memory.wfFrom_cons {lo k : Nat} {v : Byte} {m : Memory} (hw : Memory.wfFrom lo ((k, v) :: m) = true) :
    lo ≤ k ∧ v ≠ 0 ∧ Memory.wfFrom (k + 1) m = true := by
  simp only [Memory.wfFrom, Bool.and_eq_true, decide_eq_true_eq] at hw
  exact ⟨hw.1.1, hw.1.2, hw.2⟩

theorem Memory.get_head (k : Nat) (v : Byte) (m : Memory) : Memory.get ((k, v) :: m) k = v := if_pos rfl

/-- A canonical memory reads 0 below its first entry. -/
theorem Memory.get_below_head {lo k a : Nat} {v : Byte} {m : Memory} (hw : Memory.wfFrom lo ((k, v) :: m) = true)
    (ha : a < k) : Memory.get ((k, v) :: m) a = 0 := by
  obtain ⟨-, -, hm⟩ := Memory.wfFrom_cons hw
  rw [Memory.get, if_neg (by omega), Memory.get_of_lt (by omega) hm]

/-- The first entry of a canonical memory is no lower than that of one that reads alike. -/
theorem Memory.head_le {lo lo' k k' : Nat} {v v' : Byte} {m m' : Memory} (hw : Memory.wfFrom lo ((k, v) :: m) = true)
    (hw' : Memory.wfFrom lo' ((k', v') :: m') = true)
    (h : ∀ a, Memory.get ((k, v) :: m) a = Memory.get ((k', v') :: m') a) : k' ≤ k := by
  obtain ⟨-, hv, -⟩ := Memory.wfFrom_cons hw
  by_contra hlt
  have hk := h k
  rw [Memory.get_head, Memory.get_below_head hw' (by omega)] at hk
  exact hv hk

/-- Canonical memories are determined by what is read, by induction on the entries: the first entries agree, and so do the
reads of the rest. -/
theorem Memory.ext_of_get : ∀ {m m' : Memory} {lo lo' : Nat}, Memory.wfFrom lo m = true → Memory.wfFrom lo' m' = true →
    (∀ a, m.get a = m'.get a) → m = m'
  | [], [], _, _, _, _, _ => rfl
  | (k, v) :: m, [], _, _, hw, _, h =>
    absurd ((Memory.get_head k v m).symm.trans (h k)) (Memory.wfFrom_cons hw).2.1
  | [], (k, v) :: m, _, _, _, hw, h =>
    absurd ((Memory.get_head k v m).symm.trans (h k).symm) (Memory.wfFrom_cons hw).2.1
  | (k, v) :: m, (k', v') :: m', _, _, hw, hw', h => by
    obtain rfl : k = k' := Nat.le_antisymm (Memory.head_le hw' hw fun a => (h a).symm) (Memory.head_le hw hw' h)
    obtain ⟨-, -, hm⟩ := Memory.wfFrom_cons hw
    obtain ⟨-, -, hm'⟩ := Memory.wfFrom_cons hw'
    have hv : v = v' := by simpa only [Memory.get_head] using h k
    have hrest : ∀ a, Memory.get m a = Memory.get m' a := fun a => by
      by_cases ha : k = a
      · rw [Memory.get_of_lt (by omega) hm, Memory.get_of_lt (by omega) hm']
      · simpa only [Memory.get, if_neg ha] using h a
    rw [hv, Memory.ext_of_get hm hm' hrest]

/-- Settles O18: read over write and the canonical form are the laws of `Memory.set`, the converse is extensionality. -/
theorem memoryReadsWhatWasWritten : Obligations.MemoryReadsWhatWasWritten :=
  ⟨fun _ a b v hw => ⟨Memory.wf_set hw a v, Memory.get_set hw a v b⟩, fun _ _ hw hw' => Memory.ext_of_get hw hw'⟩

end Sys2Proof.Machine

/-! ## The read and write table as a frame over every instruction (10_state.md R28), and the legal comparison flags. -/

namespace Sys2Proof.Machine

/-- Only the compares write the comparison flags (10_state.md R24). -/
theorem exec_flags_of_not_compare {i : Instr} {s t : State} (h : exec i s = .next t) (hi : isCompare i = false) :
    t.eqF = s.eqF ∧ t.neF = s.neF ∧ t.ltF = s.ltF ∧ t.gtF = s.gtF := by
  cases instrEffect i with
  | write r value _ _ _ eq => cases (eq s).symm.trans h; simp
  | compare _ _ _ cmp => rw [cmp] at hi; cases hi
  | jump target _ _ _ _ eq => cases (eq s).symm.trans h; exact ⟨rfl, rfl, rfl, rfl⟩
  | store eq => subst eq; obtain ⟨-, rfl⟩ := exec_sta_next h; exact ⟨rfl, rfl, rfl, rfl⟩
  | halt eq => subst eq; cases h; exact ⟨rfl, rfl, rfl, rfl⟩

/-- A register changes only where it is the destination, A and B also for D; OVF only with a register. -/
theorem exec_register_frame {i : Instr} {s t : State} (h : exec i s = .next t) :
    (destination i ≠ some .a → destination i ≠ some .d → t.a = s.a) ∧
    (destination i ≠ some .b → destination i ≠ some .d → t.b = s.b) ∧
    (destination i ≠ some .x → t.x = s.x) ∧ (destination i ≠ some .y → t.y = s.y) ∧
    (destination i = none → t.ovf = s.ovf) := by
  rcases exec_registers h with ⟨⟨ha, hb, hx, hy, hovf⟩, -⟩ | ⟨r, v, hdest, rfl⟩
  · exact ⟨fun _ _ => ha, fun _ _ => hb, fun _ => hx, fun _ => hy, fun _ => hovf⟩
  · simp only [hdest, ne_eq, Option.some.injEq]
    exact ⟨s.setReg_a_of_ne v, s.setReg_b_of_ne v, s.setReg_x_of_ne v, s.setReg_y_of_ne v, nofun⟩

/-- Settles O27: the effects have these frames, row by row; CARRY, `start` and the configuration no effect writes. -/
theorem instructionsWriteOnlyTheirRow : Obligations.InstructionsWriteOnlyTheirRow := by
  intro i s t h
  obtain ⟨hcfg, hstart, hcarry⟩ := exec_keeps h
  have hmem : i ≠ .sta → t.events = s.events ∧ ∀ a, t.readByte a = s.readByte a := fun hi =>
    have ⟨hm, he⟩ := exec_mem_of_ne_sta hi h
    ⟨he, State.readByte_congr s t hcfg hm⟩
  obtain ⟨ha, hb, hx, hy, hovf⟩ := exec_register_frame h
  exact ⟨ha, hb, hx, hy, hovf, exec_flags_of_not_compare h, hcarry, hstart, hcfg, hmem,
    fun hi => exec_outcome_of_ne_endOp hi h⟩

/-- Exactly three results of a compare occur, each legal, each with EQ the complement of NE (41_compare.md R110). -/
theorem State.compare_legal (s : State) (v imm : Nat) :
    let t := s.compare v imm
    t.flagsLegal = true ∧ t.eqF = !t.neF ∧ t.eqF = (!t.ltF && !t.gtF) := by
  rcases Nat.lt_trichotomy v imm with hlt | heq | hgt
  · have hne := Nat.ne_of_lt hlt
    have hge := Nat.lt_asymm hlt
    simp [State.flagsLegal, hlt, hne, hge]
  · simp [State.flagsLegal, heq]
  · have hne := Nat.ne_of_gt hgt
    have hge := Nat.lt_asymm hgt
    simp [State.flagsLegal, hgt, hne, hge]

theorem State.flagsLegal_congr {s t : State} (h : t.eqF = s.eqF ∧ t.neF = s.neF ∧ t.ltF = s.ltF ∧ t.gtF = s.gtF) :
    t.flagsLegal = s.flagsLegal := by
  obtain ⟨heq, hne, hlt, hgt⟩ := h
  simp only [State.flagsLegal, heq, hne, hlt, hgt]

theorem exec_compare_legal {i : Instr} {s t : State} (hi : isCompare i = true) (h : exec i s = .next t) :
    t.flagsLegal = true ∧ t.eqF = !t.neF ∧ t.eqF = (!t.ltF && !t.gtF) := by
  cases instrEffect i with
  | compare r imm _ _ eq =>
    cases (eq s).symm.trans h
    exact State.compare_legal _ _ _
  | write _ _ _ cmp => rw [cmp] at hi; cases hi
  | jump _ _ cmp => rw [cmp] at hi; cases hi
  | store eq => subst eq; cases hi
  | halt eq => subst eq; cases hi

/-- Settles O34: a compare leaves one of its three results, any other instruction the flags as they were. -/
theorem comparisonFlagsStayLegal : Obligations.ComparisonFlagsStayLegal := by
  refine ⟨fun s t hs h => ?_, fun i s t hi h => exec_compare_legal hi h⟩
  obtain ⟨i, u, -, hexec, rfl⟩ := step_next h
  have hu : u.flagsLegal = true := by
    cases hi : isCompare i with
    | true => exact (exec_compare_legal hi hexec).1
    | false => exact (State.flagsLegal_congr (exec_flags_of_not_compare hexec hi)).trans hs
  exact (State.flagsLegal_congr ⟨finishStep_eqF u i, finishStep_neF u i, finishStep_ltF u i, finishStep_gtF u i⟩).trans hu

end Sys2Proof.Machine

/-! ## What no instruction reads: CARRY, OVF, and what the core has told the host. -/

namespace Sys2Proof.Machine

/-- An instruction without a destination leaves OVF. -/
theorem ovf_of_destination_none {i : Instr} {s t : State} (h : exec i s = .next t) :
    (if destination i = none then s.ovf else t.ovf) = t.ovf := by
  obtain ⟨-, -, -, -, hovf⟩ := exec_register_frame h
  split
  · next hd => exact (hovf hd).symm
  · rfl

/-- With other values of OVF and CARRY an instruction completes alike, with the same events and outcome. -/
theorem exec_with_ovf_carry {i : Instr} {s t : State} (h : exec i s = .next t) (ovf carry : Bool) :
    exec i { s with ovf := ovf, carry := carry } =
      .next { t with ovf := if destination i = none then ovf else t.ovf, carry := carry } := by
  obtain ⟨es, hes, heq⟩ := exec_withUnread h ovf carry s.events s.outcome
  have houtcome : (if i = .endOp then t.outcome else s.outcome) = t.outcome := by
    split
    · rfl
    · next hi => exact (exec_outcome_of_ne_endOp hi h).symm
  rw [← hes, houtcome] at heq
  exact heq

/-- `load` leaves the flags OVF and CARRY, loaded or not (70_reset_and_hazards.md R222, D15). -/
theorem loadTextCommand_ovf_carry (text : List Char) (s : State) :
    (loadTextCommand text s).2.ovf = s.ovf ∧ (loadTextCommand text s).2.carry = s.carry := by
  rcases loadTextCommand_state text s with ⟨_, _, _, -, heq⟩ | ⟨_, heq⟩ <;> rw [heq] <;> exact ⟨rfl, rfl⟩

theorem step_carry {s t : State} (h : step s = .next t) : t.carry = s.carry := by
  obtain ⟨i, u, -, hexec, rfl⟩ := step_next h
  obtain ⟨-, -, hcarry⟩ := exec_keeps hexec
  exact (finishStep_carry u i).trans hcarry

/-- Settles O28: no instruction reads CARRY, init clears it, load and step keep it. -/
theorem carryIsNeitherReadNorWritten : Obligations.CarryIsNeitherReadNorWritten := by
  refine ⟨fun i s t c h => ?_, fun s t h => ?_, fun _ => rfl, fun s text => (loadTextCommand_ovf_carry text s).2,
    fun s t hs h => ?_⟩
  · have hexec := exec_with_ovf_carry h s.ovf c
    rwa [ovf_of_destination_none h] at hexec
  · obtain ⟨ha, -⟩ := exec_register_frame h
    exact ha nofun nofun
  · have hcarry := (step_carry h).trans hs
    exact ⟨hcarry, hcarry⟩

/-- A register's value, one up, overflows exactly at the register's largest value. -/
theorem overflows_readReg_add_one (s : State) (r : Reg) :
    overflows r.width (s.readReg r + 1) = decide (s.readReg r = 2 ^ r.width - 1) := by
  have h := overflows_add_one (BitVec.ofNat r.width (s.readReg r))
  rwa [BitVec.toNat_ofNat, Nat.mod_eq_of_lt (s.readReg_lt r)] at h

theorem overflows_readReg_sub_one (s : State) (r : Reg) : overflows r.width (s.readReg r - 1) = false := by
  have h := overflows_sub_one (BitVec.ofNat r.width (s.readReg r))
  rwa [BitVec.toNat_ofNat, Nat.mod_eq_of_lt (s.readReg_lt r)] at h

theorem increment_ovf {r : Reg} {s t : State} (h : increment r s = .next t) :
    t.ovf = decide (s.readReg r = 2 ^ r.width - 1) := by
  cases h
  rw [State.setReg_ovf, overflows_readReg_add_one]

theorem decrement_ovf {r : Reg} {s t : State} (h : decrement r s = .next t) : t.ovf = false := by
  cases h
  rw [State.setReg_ovf, overflows_readReg_sub_one]

theorem loadImm_ovf {r : Reg} {n : Nat} {v : BitVec r.width} {s t : State} (h : loadImm r n v.toNat s = .next t) :
    t.ovf = false := by
  cases h
  rw [State.setReg_ovf, overflows_toNat]

theorem State.setReg_ovf_of_neg (s : State) (r : Reg) {v : Int} (hv : v < 0) : (s.setReg r v).ovf = false := by
  have hpow : (0 : Int) < 2 ^ r.width := by positivity
  rw [State.setReg_ovf, overflows, maxValue]
  exact decide_eq_false (by omega)

/-- Settles O29: `setReg`'s test is the only writer of OVF, at each shape of instruction that has a destination. -/
theorem overflowIsWrittenBySetRegAlone : Obligations.OverflowIsWrittenBySetRegAlone := by
  refine ⟨fun s r v => ⟨s.setReg_ovf r v, s.setReg_ovf_of_neg r⟩, fun i s t c h => ?_, fun s t imm v h => ?_,
    fun i d r s t hmem => ?_, fun s text => (loadTextCommand_ovf_carry text s).1⟩
  · obtain ⟨-, -, hcarry⟩ := exec_keeps h
    have hexec := exec_with_ovf_carry h c s.carry
    rw [← hcarry] at hexec ⊢
    exact hexec
  · rcases h with h | h | h | h
    · exact loadImm_ovf (r := .a) h
    · exact loadImm_ovf (r := .b) h
    · exact loadImm_ovf (r := .x) h
    · exact loadImm_ovf (r := .y) h
  · have hforms : exec i s = increment r s ∧ exec d s = decrement r s := by
      simp only [List.mem_cons, Prod.mk.injEq, List.not_mem_nil, or_false] at hmem
      rcases hmem with ⟨rfl, rfl, rfl⟩ | ⟨rfl, rfl, rfl⟩ | ⟨rfl, rfl, rfl⟩ | ⟨rfl, rfl, rfl⟩ | ⟨rfl, rfl, rfl⟩ <;>
        exact ⟨rfl, rfl⟩
    rw [hforms.1, hforms.2]
    exact ⟨increment_ovf, decrement_ovf⟩

/-! What has been told the host. -/

/-- States that differ in outputs alone are one with the other's outputs put in. -/
theorem State.withUnread_eq {s s' : State} (hs : s.withoutOutputs = s'.withoutOutputs) :
    s.withUnread s.ovf s.carry s'.events s'.outcome = s' :=
  congrArg (fun u => u.withUnread u.ovf u.carry s'.events s'.outcome) hs

theorem finishStep_withoutOutputs (i : Instr) (s : State) : (finishStep i s).withoutOutputs = s.withoutOutputs := by
  cases i <;> rfl

/-- An instruction completes alike whatever the host was told before. -/
theorem exec_next_of_withoutOutputs {i : Instr} {s s' t : State} (hs : s.withoutOutputs = s'.withoutOutputs)
    (h : exec i s = .next t) : ∃ t', exec i s' = .next t' ∧ t.withoutOutputs = t'.withoutOutputs := by
  obtain ⟨-, -, hcarry⟩ := exec_keeps h
  obtain ⟨es, -, hexec⟩ := exec_withUnread h s.ovf s.carry s'.events s'.outcome
  rw [State.withUnread_eq hs, ovf_of_destination_none h, ← hcarry] at hexec
  exact ⟨_, hexec, rfl⟩

/-- A store out of range is one whatever the host was told before. -/
theorem exec_fault_of_withoutOutputs {i : Instr} {s s' : State} {f : Fault} (hs : s.withoutOutputs = s'.withoutOutputs)
    (h : exec i s = .fault f) : exec i s' = .fault f := by
  obtain ⟨rfl, hle, rfl⟩ := exec_fault h
  rw [← State.withUnread_eq hs]
  exact if_pos hle

theorem fetch_of_withoutOutputs {s s' : State} (hs : s.withoutOutputs = s'.withoutOutputs) : fetch s' = fetch s := by
  rw [← State.withUnread_eq hs]
  exact fetch_congr rfl rfl rfl

/-- Settles O31: fetch, the instruction and the end of the step are alike in both states. -/
theorem outputsNeverInfluenceAStep : Obligations.OutputsNeverInfluenceAStep := by
  refine fun s s' hs => ⟨fun t h => ?_, fun f h => ?_⟩
  · obtain ⟨i, u, hfetch, hexec, rfl⟩ := step_next h
    obtain ⟨u', hexec', hu⟩ := exec_next_of_withoutOutputs hs hexec
    refine ⟨finishStep i u', ?_, by rw [finishStep_withoutOutputs, finishStep_withoutOutputs, hu]⟩
    rw [step_of_fetch ((fetch_of_withoutOutputs hs).trans hfetch), hexec']
  · rcases step_fault h with hfetch | ⟨i, hfetch, hexec⟩
    · exact step_of_fetch_error ((fetch_of_withoutOutputs hs).trans hfetch)
    · rw [step_of_fetch ((fetch_of_withoutOutputs hs).trans hfetch), exec_fault_of_withoutOutputs hs hexec]

end Sys2Proof.Machine

/-! ## The state after `init` (10_state.md R33). -/

namespace Sys2Proof.Machine

/-- Settles O32: the default computer's configuration is legal, and the state after init of a legal one meets the invariant. -/
theorem resetMeetsTheInvariant : Obligations.ResetMeetsTheInvariant :=
  ⟨State.initial_inv rfl, rfl⟩

theorem initCommand_regD (s : State) : (initCommand s).regD = 0 :=
  congrArg (BitVec.ofNat 16) (show pairValue 0 0 = 0 by decide)

/-- Settles O36: init writes the table's values out; a memory without entries reads 0 at every address. -/
theorem initClearsTheMachine : Obligations.InitClearsTheMachine :=
  ⟨rfl, fun s => ⟨rfl, rfl, rfl, rfl, initCommand_regD s, rfl, rfl, rfl, rfl, rfl, rfl, rfl, rfl, rfl, rfl,
    fun _ ha => State.readByte_of_lt (s := initCommand s) ha⟩⟩

end Sys2Proof.Machine

/-! ## Memory reads, the peripheral map, and what a store is seen by: the display and the next fetch. -/

namespace Sys2Proof.Machine

/-- A two-byte read faults at its first address, if that is out of range (20_memory.md R51). -/
theorem State.memRead2_of_le {s : State} {a : Nat} (h : s.cfg.memSize ≤ a) :
    s.memRead2 a = .error (.fetchOutOfRange a) := by
  simp only [State.memRead2, State.memRead_of_le h]

theorem State.memRead2_of_lt {s : State} {a : Nat} (h : a + 1 < s.cfg.memSize) :
    s.memRead2 a = .ok (bigEndian (s.mem.get a) (s.mem.get (a + 1))) := by
  simp only [State.memRead2, State.memRead_of_lt (Nat.lt_of_succ_lt h), State.memRead_of_lt h]

/-- A two-byte read at the last address finds its first byte and faults at the second. -/
theorem State.memRead2_of_succ_eq {s : State} {a : Nat} (h : a + 1 = s.cfg.memSize) :
    s.memRead2 a = .error (.fetchOutOfRange (a + 1)) := by
  simp only [State.memRead2, State.memRead_of_lt (Nat.lt_of_succ_le h.le), State.memRead_of_le h.ge]

/-- Settles O6: the three answers of a two-byte read, by where its two addresses lie. -/
theorem memReadIsBigEndian : Obligations.MemReadIsBigEndian := fun _ _ =>
  ⟨State.memRead_of_lt, fun h => ⟨State.memRead_of_le h, State.memRead2_of_le h⟩,
    fun h => ⟨_, State.memRead2_of_lt h, bigEndian_toNat _ _⟩, State.memRead2_of_succ_eq⟩

/-- Both ends of a mapped range belong to it (20_memory.md R61). -/
theorem Mapping.covers_iff (m : Mapping) (a : Nat) : m.covers a = true ↔ m.lo ≤ (a : Int) ∧ (a : Int) ≤ m.hi := by
  simp only [Mapping.covers, Bool.and_eq_true, decide_eq_true_eq]

theorem handlerEvents_cons_of_covers {m : Mapping} {a : Nat} (h : m.lo ≤ (a : Int) ∧ (a : Int) ≤ m.hi)
    (rest : List Mapping) (v : Byte) :
    handlerEvents (m :: rest) a v = .handler m.handler a v :: handlerEvents rest a v := by
  simp only [handlerEvents, List.filter_cons, Mapping.covers_iff, if_pos h, List.map_cons]

theorem handlerEvents_cons_of_not_covers {m : Mapping} {a : Nat} (h : ¬ (m.lo ≤ (a : Int) ∧ (a : Int) ≤ m.hi))
    (rest : List Mapping) (v : Byte) : handlerEvents (m :: rest) a v = handlerEvents rest a v := by
  simp only [handlerEvents, List.filter_cons, Mapping.covers_iff, if_neg h]

/-- Settles O17: the calls follow the map's entries, each called or passed over by the address alone. -/
theorem mappedRangesAreCalledInOrder : Obligations.MappedRangesAreCalledInOrder := fun _ v =>
  ⟨rfl, fun _ rest hlo hhi => handlerEvents_cons_of_covers ⟨hlo, hhi⟩ rest v,
    fun _ rest h => handlerEvents_cons_of_not_covers h rest v⟩

/-- Where the display is the one peripheral, a write inside its range is handed to it once (20_memory.md R63). -/
theorem handlerEvents_mapDisplay {c : Config} (hc : c.periph = []) {a : Nat} (hlo : c.display.base ≤ a)
    (hhi : a < c.display.base + 2 * (c.display.width * c.display.height)) (v : Byte) :
    handlerEvents c.mapDisplay.periph a v = [.handler .display a v] := by
  simp only [Config.mapDisplay, Config.mapMemory, hc, List.nil_append]
  refine handlerEvents_cons_of_covers ⟨Int.ofNat_le.2 hlo, Int.le_sub_one_of_lt ?_⟩ [] v
  rw [mul_assoc]
  exact_mod_cast hhi

/-- The last byte handed to the display for an address is the one it holds there. -/
theorem displayByte_append_handler (es : List Event) (a : Nat) (v : Byte) :
    displayByte (es ++ [.handler .display a v]) a = some v := by
  induction es with
  | nil => exact if_pos rfl
  | cons e es ih =>
    rw [List.cons_append, displayByte.eq_def]
    split
    · contradiction
    · next heq => cases heq; rw [ih]
    · next heq => cases heq; exact ih

/-- The two addresses of a cell of the display lie in its range (20_memory.md R63). -/
theorem cell_address_mem_range {d : Display} {k a : Nat} (hk : k < d.width * d.height)
    (ha : a = charAddress d k ∨ a = attrAddress d k) :
    d.base ≤ a ∧ a < d.base + 2 * (d.width * d.height) := by
  unfold charAddress attrAddress at ha
  omega

/-- Settles O20: the address lies in the one mapped range, so the store's only event, its last, hands the byte to the display. -/
theorem displayCellTakesTheStoredByte : Obligations.DisplayCellTakesTheStoredByte := by
  intro s t k c hc hcfg hk haddr h
  obtain ⟨-, rfl⟩ := exec_sta_next h
  rw [hcfg] at haddr
  obtain ⟨hlo, hhi⟩ := cell_address_mem_range hk haddr
  simp only [hcfg, handlerEvents_mapDisplay hc hlo hhi]
  exact displayByte_append_handler s.events _ s.a

/-- The opcode map gives a one-byte encoding back its instruction, row by row; the other instructions' encodings are longer
(30_encoding.md R73). -/
theorem layoutOf_of_encode_eq_singleton {i : Instr} {op : Byte} (h : encode i = [op]) :
    layoutOf op = some (.none i) := by
  cases i <;> cases h <;> rfl

/-- A fetch of a one-byte instruction reads that byte alone. -/
theorem fetch_of_readByte {s : State} {i : Instr} {op : Byte} (hop : s.readByte s.pc = some op)
    (h : encode i = [op]) : fetch s = .ok i := by
  simp only [fetch, State.memRead, hop, layoutOf_of_encode_eq_singleton h]

/-- Settles O19: the step is a STA, which leaves `pc` at the byte it has stored. -/
theorem storeIsSeenByTheNextFetch : Obligations.StoreIsSeenByTheNextFetch := by
  intro s t i hwf hop hx hi h
  obtain ⟨j, u, hfetch, hexec, rfl⟩ := step_next h
  cases hfetch.symm.trans (fetch_of_readByte hop (i := .sta) rfl)
  obtain ⟨hlt, rfl⟩ := exec_sta_next hexec
  rw [hx] at hlt
  refine fetch_of_readByte ?_ hi
  rw [finishStep_pc, State.readByte_of_lt (by simpa using hlt)]
  simp [hx, Memory.get_set hwf]

end Sys2Proof.Machine

/-! ## The encoding: bytes decode to an instruction exactly when they begin with its encoding (30_encoding.md R70 to R75). -/

namespace Sys2Proof

/-- A format, the operand bytes it asks for, and the instruction they make (30_encoding.md R71, R72). -/
inductive Layout.Reads : Layout → List Byte → Instr → Prop
  | none (i : Instr) : Reads (.none i) [] i
  | imm8 (mk : Byte → Instr) (b : Byte) : Reads (.imm8 mk) [b] (mk b)
  | imm16 (mk : Half → Instr) {h l : Byte} {v : Half} (hv : bigEndian h l = v) : Reads (.imm16 mk) [h, l] (mk v)
  | addr16 (mk : Half → Instr) {h l : Byte} {v : Half} (hv : bigEndian h l = v) : Reads (.addr16 mk) [h, l] (mk v)

/-- Operand bytes are never checked: any two bytes begin with the operand bytes of every format (30_encoding.md R75). -/
theorem Layout.exists_reads (f : Layout) (b1 b2 : Byte) (rest : List Byte) :
    ∃ operands i rest', f.Reads operands i ∧ b1 :: b2 :: rest = operands ++ rest' := by
  cases f with
  | none i => exact ⟨_, _, _, .none i, rfl⟩
  | imm8 mk => exact ⟨_, _, _, .imm8 mk b1, rfl⟩
  | imm16 mk => exact ⟨_, _, _, .imm16 mk rfl, rfl⟩
  | addr16 mk => exact ⟨_, _, _, .addr16 mk rfl, rfl⟩

theorem decode_of_layoutOf_eq_none {op : Byte} (h : layoutOf op = none) (rest : List Byte) :
    decode (op :: rest) = .error (.unknownOpcode op) := by
  simp only [decode, h]

theorem decode_of_reads {op : Byte} {f : Layout} {operands : List Byte} {i : Instr} (hf : layoutOf op = some f)
    (hr : f.Reads operands i) (rest : List Byte) : decode (op :: (operands ++ rest)) = .ok (i, rest) := by
  cases hr <;> simp only [decode, *, List.nil_append, List.cons_append]

/-- Whatever decodes is an opcode byte with a format, and then the operand bytes that the format asks for. -/
theorem reads_of_decode {bytes rest : List Byte} {i : Instr} (h : decode bytes = .ok (i, rest)) :
    ∃ op f operands, layoutOf op = some f ∧ f.Reads operands i ∧ bytes = op :: (operands ++ rest) := by
  unfold decode at h
  split at h
  · cases h
  · next op tail =>
    split at h
    · cases h
    · next hf => cases h; exact ⟨op, _, _, hf, .none _, rfl⟩
    · next hf => cases h; exact ⟨op, _, _, hf, .imm8 _ _, rfl⟩
    · next hf => cases h; exact ⟨op, _, _, hf, .imm16 _ rfl, rfl⟩
    · next hf => cases h; exact ⟨op, _, _, hf, .addr16 _ rfl, rfl⟩
    · cases h

theorem encode_of_reads {op : Byte} {f : Layout} {operands : List Byte} {i : Instr} (hf : layoutOf op = some f)
    (hr : f.Reads operands i) : encode i = op :: operands := by
  have henc := layoutOf_encodes hf
  cases hr with
  | none => exact henc
  | imm8 mk b => exact henc b
  | imm16 mk hv | addr16 mk hv =>
    subst hv
    rw [henc, encode16, hiByte_bigEndian, loByte_bigEndian]

/-- The rows of the opcode map, from the encoder's side (30_encoding.md R73). -/
theorem encode_reads (i : Instr) :
    ∃ op f operands, encode i = op :: operands ∧ layoutOf op = some f ∧ f.Reads operands i := by
  cases i with
  | lda v | cmpa v | cmpb v | ldb v => exact ⟨_, _, _, rfl, rfl, .imm8 _ v⟩
  | ldx v | cmpx v | cmpy v | cmpd v | ldy v => exact ⟨_, _, _, rfl, rfl, .imm16 _ (bigEndian_hiByte_loByte v)⟩
  | jmp v | jeq v | jne v | jgt v | jlt v => exact ⟨_, _, _, rfl, rfl, .addr16 _ (bigEndian_hiByte_loByte v)⟩
  | _ => exact ⟨_, _, _, rfl, rfl, .none _⟩

/-- Decoder and encoder are inverse to each other. -/
theorem decode_eq_ok_iff {bytes rest : List Byte} {i : Instr} :
    decode bytes = .ok (i, rest) ↔ bytes = encode i ++ rest := by
  constructor
  · intro h
    obtain ⟨op, f, operands, hf, hr, rfl⟩ := reads_of_decode h
    rw [encode_of_reads hf hr, List.cons_append]
  · rintro rfl
    obtain ⟨op, f, operands, he, hf, hr⟩ := encode_reads i
    rw [he, List.cons_append]
    exact decode_of_reads hf hr rest

/-- Settles O2: bytes that begin with an encoding decode to its instruction. -/
theorem decodeOfEncodeIsTheInstruction : Obligations.DecodeOfEncodeIsTheInstruction := fun _ _ =>
  decode_eq_ok_iff.2 rfl

/-- Settles O3: an opcode byte with a format and the operand bytes it asks for are what the encoder writes. -/
theorem decodedBytesAreTheEncoding : Obligations.DecodedBytesAreTheEncoding := fun _ _ _ =>
  decode_eq_ok_iff.1

/-- The opcode bytes without a row in the opcode map (30_encoding.md R75). -/
theorem layoutOf_eq_none_iff (op : Byte) :
    layoutOf op = none ↔ op.toNat = 0 ∨ (0x19 ≤ op.toNat ∧ op.toNat ≤ 0x21) ∨ 0x24 ≤ op.toNat := by
  unfold layoutOf
  split
  all_goals simp only [reduceCtorEq, true_iff, false_iff, imp_false] at *
  all_goals omega

/-- Settles O4: a byte without a row is refused whatever follows; a byte with a row has a format, which two bytes satisfy. -/
theorem unrecognisedOpcodesAreExactlyTheListed : Obligations.UnrecognisedOpcodesAreExactlyTheListed := by
  intro op b1 b2 rest
  rw [← layoutOf_eq_none_iff]
  constructor
  · exact fun h => ⟨decode_of_layoutOf_eq_none h _, decode_of_layoutOf_eq_none h _⟩
  · intro h
    obtain ⟨f, hf⟩ := Option.ne_none_iff_exists'.1 h
    obtain ⟨operands, i, rest', hr, heq⟩ := f.exists_reads b1 b2 rest
    exact ⟨i, rest', heq ▸ decode_of_reads hf hr rest'⟩

/-- Settles O1: each word is the encoding of its instruction. -/
theorem decodesWordsOfTheSpec : Obligations.DecodesWordsOfTheSpec := by
  refine ⟨?_, ?_, ?_, ?_, ?_, ?_, ?_, ?_, ?_, ?_, ?_⟩ <;> exact decode_eq_ok_iff.2 rfl

theorem Layout.Reads.length_eq {f : Layout} {operands : List Byte} {i : Instr} (hr : f.Reads operands i) :
    f.length = operands.length + 1 := by
  cases hr <;> rfl

theorem encode_length (i : Instr) : (encode i).length = i.length := by
  cases i <;> rfl

/-- Settles O5: the encoding is the opcode byte and the operand bytes that its format asks for. -/
theorem firstByteGivesTheLength : Obligations.FirstByteGivesTheLength := by
  intro i op operands h
  have hlen : operands.length + 1 = i.length := by rw [← encode_length i, h, List.length_cons]
  obtain ⟨_, f, _, he, hf, hr⟩ := encode_reads i
  cases he.symm.trans h
  exact ⟨⟨f, hf, hr.length_eq.trans hlen⟩, hlen, Machine.Instr.length_le i⟩

end Sys2Proof

/-! ## The hex text of an image (30_encoding.md R77). -/

namespace Sys2Proof.Machine

theorem upperHexValue_hexDigit : ∀ n < 16, upperHexValue (hexDigit n) = some n := by decide

theorem hexDigit_mem : ∀ n < 16, hexDigit n ∈ "0123456789ABCDEF".toList := by decide

theorem nibbles_lt (v : Byte) : v.toNat / 16 < 16 ∧ v.toNat % 16 < 16 := by
  have h := v.isLt
  omega

/-- Two digits, most significant first, read as the byte they were written for. -/
theorem fromHexText_toHexText (bytes : List Byte) : fromHexText (toHexText bytes) = some bytes := by
  induction bytes with
  | nil => rfl
  | cons v vs ih =>
    obtain ⟨hhi, hlo⟩ := nibbles_lt v
    simp only [toHexText, fromHexText, upperHexValue_hexDigit _ hhi, upperHexValue_hexDigit _ hlo, ih,
      Nat.div_add_mod', BitVec.ofNat_toNat, BitVec.setWidth_eq]

theorem length_toHexText (bytes : List Byte) : (toHexText bytes).length = 2 * bytes.length := by
  induction bytes with
  | nil => rfl
  | cons v vs ih => simp only [toHexText, List.length_cons, ih]; omega

theorem mem_digits_of_mem_toHexText (bytes : List Byte) : ∀ c ∈ toHexText bytes, c ∈ "0123456789ABCDEF".toList := by
  induction bytes with
  | nil => exact fun _ h => absurd h List.not_mem_nil
  | cons v vs ih =>
    obtain ⟨hhi, hlo⟩ := nibbles_lt v
    exact List.forall_mem_cons.2 ⟨hexDigit_mem _ hhi, List.forall_mem_cons.2 ⟨hexDigit_mem _ hlo, ih⟩⟩

/-- Settles O39: each part by induction on the bytes, two digits at a time. -/
theorem hexTextCarriesTheBytes : Obligations.HexTextCarriesTheBytes := fun bytes =>
  ⟨fromHexText_toHexText bytes, length_toHexText bytes, mem_digits_of_mem_toHexText bytes⟩

end Sys2Proof.Machine

/-! ## The loads and the store (40_load_store.md R90 to R94). -/

namespace Sys2Proof.Machine

/-- After a completed `MemWrite` its address reads the byte written, and every other address reads as before. -/
theorem State.readByte_of_memWrite_next {s t : State} {a : Nat} {v : Byte} (hwf : s.mem.wf = true)
    (h : s.memWrite a v = .next t) (b : Nat) : t.readByte b = if b = a then some v else s.readByte b := by
  obtain ⟨ha, rfl⟩ := State.memWrite_next h
  by_cases hb : b = a
  · simp only [State.readByte, Memory.get_set hwf, if_pos hb, if_pos (hb.trans_lt ha)]
  · simp only [State.readByte, Memory.get_set hwf, if_neg hb]

/-- Settles O16: a completed STA is a completed `MemWrite` of A at X, and the byte reads follow that write's rule. -/
theorem staChangesOneByteOnly : Obligations.StaChangesOneByteOnly := by
  intro s t hwf h
  have hread := State.readByte_of_memWrite_next (s := s.advance 1) hwf h
  obtain ⟨-, rfl⟩ := exec_sta_next h
  exact ⟨(hread _).trans (if_pos rfl), fun a ha => (hread a).trans (if_neg ha), ⟨_, rfl⟩, rfl⟩

/-- A load of a value of the register's own width stores it unwrapped and clears OVF. -/
theorem loadImm_toNat (r : Reg) (n : Nat) {w : Nat} (v : BitVec w) (s : State) (hw : r.width = w) :
    loadImm r n v.toNat s = .next ({ s with pc := s.pc + n, ovf := false }.writeReg r v.toNat) := by
  rw [loadImm, State.setReg_eq, hw, overflows_toNat, wrap_natCast, Nat.mod_eq_of_lt v.isLt]
  rfl

/-- Settles O14: each immediate has its register's width. -/
theorem loadsSetTheirRegister : Obligations.LoadsSetTheirRegister := by
  intro s
  refine ⟨fun imm => (loadImm_toNat .a 2 imm s rfl).trans ?_,
    fun imm => (loadImm_toNat .b 2 imm s rfl).trans ?_,
    fun imm => (loadImm_toNat .x 3 imm s rfl).trans ?_,
    fun imm => (loadImm_toNat .y 3 imm s rfl).trans ?_⟩ <;>
  simp only [State.writeReg, BitVec.ofNat_toNat, BitVec.setWidth_eq]

/-- Settles O15: STA is a `MemWrite` after the advance, and the address decides which of its two answers it gives. -/
theorem staWritesThroughX : Obligations.StaWritesThroughX := fun s =>
  ⟨fun h => (exec_sta s).trans (if_neg (Nat.not_le.2 h)), fun h => (exec_sta s).trans (if_pos h)⟩

end Sys2Proof.Machine

/-! ## The compares (41_compare.md R110 to R115). -/

namespace Sys2Proof.Machine

/-! The three results of a compare, one for each order of its arguments (R110). -/

theorem State.compare_of_eq (s : State) {v imm : Nat} (h : v = imm) :
    s.compare v imm = { s with eqF := true, neF := false, ltF := false, gtF := false } := by
  simp [State.compare, h]

theorem State.compare_of_lt (s : State) {v imm : Nat} (h : v < imm) :
    s.compare v imm = { s with eqF := false, neF := true, ltF := true, gtF := false } := by
  simp [State.compare, h, Nat.ne_of_lt h, Nat.le_of_lt h]

theorem State.compare_of_gt (s : State) {v imm : Nat} (h : v > imm) :
    s.compare v imm = { s with eqF := false, neF := true, ltF := false, gtF := true } := by
  simp [State.compare, h, Nat.ne_of_gt h, Nat.le_of_lt h]

/-- The shape shared by the five compare instructions, with the advance of `pc` written out. -/
theorem compareImm_eq (r : Reg) (n imm : Nat) (s : State) :
    compareImm r n imm s = .next ({ s with pc := s.pc + n }.compare (s.readReg r) imm) := rfl

/-- Settles O21: the order of the arguments decides the result, and the instructions differ in register and length alone. -/
theorem comparesRewriteAllFourFlags : Obligations.ComparesRewriteAllFourFlags :=
  ⟨fun s _ _ => ⟨rfl, s.compare_of_eq, s.compare_of_lt, s.compare_of_gt⟩,
    fun s =>
      ⟨fun imm => compareImm_eq .a 2 imm.toNat s,
        fun imm => compareImm_eq .b 2 imm.toNat s,
        fun imm => compareImm_eq .x 3 imm.toNat s,
        fun imm => compareImm_eq .y 3 imm.toNat s,
        fun imm => compareImm_eq .d 3 imm.toNat s⟩⟩

end Sys2Proof.Machine

/-! ## The jumps (42_jump.md R120 to R125). -/

namespace Sys2Proof.Machine

/-- The shape shared by the five jump instructions, with the unreduced target written out (R120, D35). -/
theorem jumpIf_eq (taken : Bool) (off : Half) (s : State) :
    jumpIf taken off s = .next { s with pc := if taken then s.start.toNat + off.toNat else s.pc + 3 } := rfl

/-- A jump that is taken goes to its target, whatever `pc` was. -/
theorem jumpIf_true (off : Half) (s : State) :
    jumpIf true off s = .next { s with pc := s.start.toNat + off.toNat } := by
  rw [jumpIf_eq, if_pos rfl]

/-- Settles O22: JMP is the jump always taken, and the conditional jumps differ in the flag they test alone. -/
theorem jumpsWriteThePcAlone : Obligations.JumpsWriteThePcAlone := fun s off =>
  ⟨jumpIf_true off s,
    jumpIf_eq s.eqF off s,
    jumpIf_eq s.neF off s,
    jumpIf_eq s.gtF off s,
    jumpIf_eq s.ltF off s⟩

end Sys2Proof.Machine

/-! ## The increments and decrements (43_inc_dec.md R130 to R141). -/

namespace Sys2Proof.Machine

/-- Storing a value plus one: the remainder is the bit vector's own sum. -/
theorem wrap_toNat_add_one {w : Nat} (v : BitVec w) : wrap w (v.toNat + 1) = (v + 1).toNat := by
  rw [← ofNat_wrap_add_one, BitVec.toNat_ofNat, Nat.mod_eq_of_lt (wrap_lt w _)]

/-- Storing a value minus one: the remainder is the bit vector's own difference. -/
theorem wrap_toNat_sub_one {w : Nat} (hw : w = 8 ∨ w = 16) (v : BitVec w) : wrap w (v.toNat - 1) = (v - 1).toNat := by
  rw [← ofNat_wrap_sub_one hw, BitVec.toNat_ofNat, Nat.mod_eq_of_lt (wrap_lt w _)]

theorem Reg.width_eq (r : Reg) : r.width = 8 ∨ r.width = 16 := by
  cases r <;> decide

/-- The largest value is the one whose bits are all 1. -/
theorem decide_toNat_eq_max {w : Nat} (v : BitVec w) : decide (v.toNat = 2 ^ w - 1) = decide (v = BitVec.allOnes w) := by
  rw [← BitVec.toNat_allOnes]
  exact decide_eq_decide.2 BitVec.toNat_inj

/-- The shape shared by the five increments: the register one up as a bit vector, OVF at its largest value (R140, R141). -/
theorem increment_eq {r : Reg} {w : Nat} {v : BitVec w} {s : State} (hw : r.width = w) (hv : s.readReg r = v.toNat) :
    increment r s = .next ({ s with pc := s.pc + 1, ovf := decide (v = BitVec.allOnes w) }.writeReg r (v + 1).toNat) := by
  subst hw
  rw [increment, State.setReg_eq, overflows_readReg_add_one, hv, wrap_toNat_add_one, decide_toNat_eq_max]
  rfl

/-- The shape shared by the five decrements: the register one down as a bit vector, OVF cleared (R140, R141). -/
theorem decrement_eq {r : Reg} {w : Nat} {v : BitVec w} {s : State} (hw : r.width = w) (hv : s.readReg r = v.toNat) :
    decrement r s = .next ({ s with pc := s.pc + 1, ovf := false }.writeReg r (v - 1).toNat) := by
  subst hw
  rw [decrement, State.setReg_eq, overflows_readReg_sub_one, hv, wrap_toNat_sub_one r.width_eq]
  rfl

/-! What `writeReg` stores of a bit vector of the register's own width. -/

theorem State.writeReg_a_toNat (s : State) (v : Byte) : s.writeReg .a v.toNat = { s with a := v } := by
  rw [State.writeReg, BitVec.ofNat_toNat, BitVec.setWidth_eq]

theorem State.writeReg_b_toNat (s : State) (v : Byte) : s.writeReg .b v.toNat = { s with b := v } := by
  rw [State.writeReg, BitVec.ofNat_toNat, BitVec.setWidth_eq]

theorem State.writeReg_x_toNat (s : State) (v : Half) : s.writeReg .x v.toNat = { s with x := v } := by
  rw [State.writeReg, BitVec.ofNat_toNat, BitVec.setWidth_eq]

theorem State.writeReg_y_toNat (s : State) (v : Half) : s.writeReg .y v.toNat = { s with y := v } := by
  rw [State.writeReg, BitVec.ofNat_toNat, BitVec.setWidth_eq]

theorem State.writeReg_d_toNat (s : State) (v : Half) :
    s.writeReg .d v.toNat = { s with a := hiByte v, b := loByte v } := rfl

theorem State.readReg_d (s : State) : s.readReg .d = s.regD.toNat := s.regD_toNat.symm

/-- Settles O23: the increments differ in the register alone, and each register stores its own width. -/
theorem incrementsAddOne : Obligations.IncrementsAddOne := fun s =>
  ⟨(increment_eq (r := .a) rfl rfl).trans (congrArg _ (State.writeReg_a_toNat _ _)),
    (increment_eq (r := .b) rfl rfl).trans (congrArg _ (State.writeReg_b_toNat _ _)),
    (increment_eq (r := .x) rfl rfl).trans (congrArg _ (State.writeReg_x_toNat _ _)),
    (increment_eq (r := .y) rfl rfl).trans (congrArg _ (State.writeReg_y_toNat _ _)),
    (increment_eq rfl s.readReg_d).trans (congrArg _ (State.writeReg_d_toNat _ _))⟩

/-- Settles O24: the decrements differ in the register alone, and each register stores its own width. -/
theorem decrementsSubtractOne : Obligations.DecrementsSubtractOne := fun s =>
  ⟨(decrement_eq (r := .a) rfl rfl).trans (congrArg _ (State.writeReg_a_toNat _ _)),
    (decrement_eq (r := .b) rfl rfl).trans (congrArg _ (State.writeReg_b_toNat _ _)),
    (decrement_eq (r := .x) rfl rfl).trans (congrArg _ (State.writeReg_x_toNat _ _)),
    (decrement_eq (r := .y) rfl rfl).trans (congrArg _ (State.writeReg_y_toNat _ _)),
    (decrement_eq rfl s.readReg_d).trans (congrArg _ (State.writeReg_d_toNat _ _))⟩

/-- A register written with its own value stays as it was. -/
theorem State.writeReg_readReg (s : State) (r : Reg) : s.writeReg r (s.readReg r) = s := by
  cases r with
  | a => exact s.writeReg_a_toNat s.a
  | b => exact s.writeReg_b_toNat s.b
  | x => exact s.writeReg_x_toNat s.x
  | y => exact s.writeReg_y_toNat s.y
  | d =>
    have ha : hiByte s.regD = s.a := hiByte_bigEndian s.a s.b
    have hb : loByte s.regD = s.b := loByte_bigEndian s.a s.b
    rw [State.readReg_d, State.writeReg_d_toNat, ha, hb]

/-- Of two writes of one register the second alone is left, beside `pc` and OVF. -/
theorem State.setReg_setReg_restored (s : State) (r : Reg) (v v' : Int) :
    { (((s.advance 1).setReg r v).advance 1).setReg r v' with pc := s.pc, ovf := s.ovf } =
      s.writeReg r (wrap r.width v') := by
  cases r <;> rfl

/-- Taking `k` from a register that was stored `k` up gives its first value back: the remainders cancel (R140). -/
theorem wrap_readReg_setReg_sub (s : State) (r : Reg) (k : Int) :
    wrap r.width (((s.advance 1).setReg r (s.readReg r + k)).readReg r - k) = s.readReg r := by
  rw [State.readReg_setReg, wrap, Int.emod_sub_emod, add_sub_cancel_right]
  exact (wrap_natCast r.width _).trans (Nat.mod_eq_of_lt (s.readReg_lt r))

/-- Adding `k` to a register and taking it back ends in the first state, but for `pc` and OVF. -/
theorem setReg_sub_undoes_add (s : State) (r : Reg) (k : Int) {t : State}
    (ht : t = (s.advance 1).setReg r (s.readReg r + k)) :
    { (t.advance 1).setReg r (t.readReg r - k) with pc := s.pc, ovf := s.ovf } = s := by
  rw [ht, State.setReg_setReg_restored, wrap_readReg_setReg_sub, State.writeReg_readReg]

/-- The increment and decrement instructions come in pairs, one for each register. -/
theorem exec_incDec_of_mem {i d : Instr}
    (h : (i, d) ∈ [(.inca, .deca), (.incb, .decb), (.incx, .decx), (.incy, .decy), (.incd, .decd)]) :
    ∃ r, exec i = increment r ∧ exec d = decrement r := by
  simp only [List.mem_cons, Prod.mk.injEq, List.not_mem_nil, or_false] at h
  rcases h with ⟨rfl, rfl⟩ | ⟨rfl, rfl⟩ | ⟨rfl, rfl⟩ | ⟨rfl, rfl⟩ | ⟨rfl, rfl⟩
  · exact ⟨.a, rfl, rfl⟩
  · exact ⟨.b, rfl, rfl⟩
  · exact ⟨.x, rfl, rfl⟩
  · exact ⟨.y, rfl, rfl⟩
  · exact ⟨.d, rfl, rfl⟩

/-- Settles O25: a decrement adds -1, so both orders are one and the same cancellation. -/
theorem decrementUndoesIncrement : Obligations.DecrementUndoesIncrement := by
  intro i d s t u hmem
  obtain ⟨r, hi, hd⟩ := exec_incDec_of_mem hmem
  rw [hi, hd]
  constructor
  · rintro ⟨⟩ ⟨⟩
    exact setReg_sub_undoes_add s r 1 rfl
  · rintro ⟨⟩ ⟨⟩
    have h := setReg_sub_undoes_add s r (-1) rfl
    rwa [sub_neg_eq_add, ← sub_eq_add_neg] at h

end Sys2Proof.Machine

/-! ## A fetch of the bytes at `pc`, and the step of what it finds (44_system.md R151, R152). -/

namespace Sys2Proof.Machine

theorem State.memRead_of_readByte {s : State} {a : Nat} {v : Byte} (h : s.readByte a = some v) :
    s.memRead a = .ok v := by
  simp only [State.memRead, h]

theorem State.memRead2_of_readByte {s : State} {a : Nat} {b1 b0 : Byte} (h1 : s.readByte a = some b1)
    (h0 : s.readByte (a + 1) = some b0) : s.memRead2 a = .ok (bigEndian b1 b0) := by
  simp only [State.memRead2, State.memRead_of_readByte h1, State.memRead_of_readByte h0]

/-- The converse of `bytesAtPc_of_fetch`, format by format: the operand reads find the operand bytes of the encoding. -/
theorem fetch_of_bytesAtPc {s : State} {i : Instr} (h : s.bytesAtPc (encode i)) : fetch s = .ok i := by
  obtain ⟨op, f, operands, he, hf, hr⟩ := encode_reads i
  rw [he] at h
  have hop : s.memRead s.pc = .ok op := State.memRead_of_readByte (h 0 op rfl)
  cases hr with
  | none => simp only [fetch, hop, hf]
  | imm8 mk b =>
    have hb : s.memRead (s.pc + 1) = .ok b := State.memRead_of_readByte (h 1 b rfl)
    simp only [fetch, hop, hf, hb, Except.map]
  | @imm16 mk b1 b0 v hv | @addr16 mk b1 b0 v hv =>
    have hb : s.memRead2 (s.pc + 1) = .ok (bigEndian b1 b0) := State.memRead2_of_readByte (h 1 b1 rfl) (h 2 b0 rfl)
    simp only [fetch, hop, hf, hb, hv, Except.map]

theorem step_of_fetch_of_exec_next {s t : State} {i : Instr} (hfetch : fetch s = .ok i) (hexec : exec i s = .next t) :
    step s = .next (finishStep i t) := by
  rw [step_of_fetch hfetch, hexec]

/-- Settles O7: the bytes are the encoding of `i`, so the step fetches `i` and does what its rule answers. -/
theorem stepRunsTheDecodedInstruction : Obligations.StepRunsTheDecodedInstruction := by
  intro s bytes i hbytes hdecode
  have hencode := decode_eq_ok_iff.1 hdecode
  rw [List.append_nil] at hencode
  have hfetch : fetch s = .ok i := fetch_of_bytesAtPc (hencode ▸ hbytes)
  refine ⟨fun t hexec hi => ?_, fun t hexec hi => ?_, fun f hexec => ?_⟩
  · rw [step_of_fetch_of_exec_next hfetch hexec, hi, finishStep_endOp]
  · rw [step_of_fetch_of_exec_next hfetch hexec, finishStep_of_ne t i hi]
    rfl
  · rw [step_of_fetch hfetch, hexec]

/-- The opcode byte is read first of all (60_exceptions.md R206). -/
theorem step_of_memSize_le_pc {s : State} (h : s.cfg.memSize ≤ s.pc) : step s = .fault (.fetchOutOfRange s.pc) :=
  step_of_fetch_error (by simp only [fetch, State.memRead_of_le h])

/-- An opcode byte without a row ends the step before any operand is read (60_exceptions.md R206). -/
theorem step_of_layoutOf_eq_none {s : State} {op : Byte} (hop : s.readByte s.pc = some op) (hl : layoutOf op = none) :
    step s = .fault (.unknownOpcode s.pc op) :=
  step_of_fetch_error (by simp only [fetch, State.memRead_of_readByte hop, hl])

/-- Settles O11: the abnormal end keeps `pc` and the byte there, so the same step is met again. -/
theorem unrecognisedOpcodeHaltsAndRepeats : Obligations.UnrecognisedOpcodeHaltsAndRepeats := by
  intro s op hop hrange
  have hl := (layoutOf_eq_none_iff op).2 hrange
  have hfirst := stepCommand_of_fault (step_of_layoutOf_eq_none hop hl)
  have hagain : (s.endAbnormally (.unknownOpcode s.pc op)).readByte s.pc = some op := hop
  rw [hfirst]
  exact ⟨rfl, congrArg Prod.fst (stepCommand_of_fault (step_of_layoutOf_eq_none hagain hl)), rfl⟩

end Sys2Proof.Machine

/-! ## END and the observer (44_system.md R150, R152, R154). -/

namespace Sys2Proof.Machine

/-- END's rule, with its advance of `pc` and its report written out. -/
theorem exec_endOp (s : State) :
    exec .endOp s = .next { s with pc := s.pc + 1, outcome := some (.haltEnd (s.pc + 1)) } := rfl

/-- END is fetched exactly where its byte stands. -/
theorem fetch_eq_endOp_iff (s : State) : fetch s = .ok .endOp ↔ s.readByte s.pc = some 0x04 :=
  ⟨fun h => bytesAtPc_of_fetch h 0 0x04 rfl, fun h => fetch_of_readByte h rfl⟩

theorem step_endOp {s : State} (h : s.readByte s.pc = some 0x04) :
    step s = .next { s with pc := s.pc + 1, outcome := some (.haltEnd (s.pc + 1)) } :=
  step_of_fetch_of_exec_next ((fetch_eq_endOp_iff s).2 h) (exec_endOp s)

/-- Settles O26: END's rule is all of its step, and the next fetch reads at the new `pc` like any other. -/
theorem endHaltsPastItsByte : Obligations.EndHaltsPastItsByte :=
  ⟨rfl, exec_endOp, fun _ hop => stepCommand_of_next (step_endOp hop), fun _ => step_of_memSize_le_pc,
    fun _ _ _ _ _ => fetch_of_bytesAtPc⟩

theorem exists_of_mem_handlerEvents {periph : List Mapping} {a : Nat} {v : Byte} {e : Event}
    (h : e ∈ handlerEvents periph a v) : ∃ h a v, e = .handler h a v := by
  obtain ⟨m, -, rfl⟩ := List.mem_map.1 h
  exact ⟨m.handler, a, v, rfl⟩

/-- An instruction's own events are handler calls: those of a STA, and none of any other (20_memory.md R58). -/
theorem exec_events {i : Instr} {s t : State} (h : exec i s = .next t) :
    ∃ hs, t.events = s.events ++ hs ∧ ∀ e ∈ hs, ∃ h a v, e = .handler h a v := by
  by_cases hi : i = .sta
  · subst hi
    obtain ⟨-, rfl⟩ := exec_sta_next h
    exact ⟨_, rfl, fun _ => exists_of_mem_handlerEvents⟩
  · obtain ⟨-, hevents⟩ := exec_mem_of_ne_sta hi h
    exact ⟨[], by rw [hevents, List.append_nil], nofun⟩

/-- Settles O30: after END the step adds nothing; after any other instruction one notify follows the instruction's events. -/
theorem observerIsNotifiedAfterEveryContinue : Obligations.ObserverIsNotifiedAfterEveryContinue := by
  intro s t h
  obtain ⟨i, u, hfetch, hexec, rfl⟩ := step_next h
  by_cases hi : i = .endOp
  · subst hi
    cases (exec_endOp s).symm.trans hexec
    exact .inl ⟨rfl, rfl, (fetch_eq_endOp_iff s).1 hfetch⟩
  · obtain ⟨hs, hevents, hhandlers⟩ := exec_events hexec
    have hbyte : s.readByte s.pc ≠ some 0x04 := fun hop =>
      hi (Except.ok.inj (hfetch.symm.trans ((fetch_eq_endOp_iff s).2 hop)))
    rw [finishStep_of_ne u i hi]
    exact .inr ⟨rfl, hbyte, hs, congrArg (· ++ [Event.notify u.snapshot]) hevents, hhandlers⟩

end Sys2Proof.Machine

/-! ## One boundary of a run, and runs of them (44_system.md R153, R156). -/

namespace Sys2Proof.Machine

/-! The three ways through a boundary at which no step is refused. -/

theorem runLoop_of_stopsHere {pending : Bool} {b : Boundary} (h : stopsHere pending b = true) (bs : List Boundary)
    (s : State) : runLoop (b :: bs) pending s = (.stopped s.pc, s) := by
  simp only [runLoop, h, if_true]

theorem runLoop_of_continued {pending : Bool} {b : Boundary} {s u : State} (h : stopsHere pending b = false)
    (hstep : stepCommand s = (some .continued, u)) (bs : List Boundary) :
    runLoop (b :: bs) pending s = runLoop bs b.stopReq u := by
  simp [runLoop, h, hstep]

theorem runLoop_of_ended {pending : Bool} {b : Boundary} {s u : State} {o : StepOutcome}
    (h : stopsHere pending b = false) (ho : o ≠ .continued) (hstep : stepCommand s = (some o, u)) (bs : List Boundary) :
    runLoop (b :: bs) pending s = (.ended o, u) := by
  cases o with
  | continued => exact absurd rfl ho
  | _ => simp [runLoop, h, hstep]

/-- A request honoured late lets the boundary pass where it is seen. -/
theorem stopsHere_of_late {b : Boundary} (h : b.late = true) : stopsHere false b = false := by
  simp [stopsHere, h]

/-- Settles O40: the run goes on from the boundary where the request is seen; on the late schedule the stop is pending at the
next boundary. -/
theorem stopTakesEffectWithinOneStep : Obligations.StopTakesEffectWithinOneStep := by
  intro n s t b c bs hrun hreq
  have hsplit : runCommand (undisturbed n ++ b :: c :: bs) s = runLoop (b :: c :: bs) false t :=
    runLoop_undisturbed_append _ n s t hrun
  rw [hsplit]
  refine ⟨fun hlate => ?_, fun hlate u hstep => ?_, fun hlate o u ho hstep => ?_⟩
  · have hstop : stopsHere false b = true := by simp [stopsHere, hreq, hlate]
    exact runLoop_of_stopsHere hstop _ t
  · rw [runLoop_of_continued (stopsHere_of_late hlate) hstep, hreq]
    exact runLoop_of_stopsHere rfl bs u
  · exact runLoop_of_ended (stopsHere_of_late hlate) ho hstep _

theorem undisturbed_add (m n : Nat) : undisturbed (m + n) = undisturbed m ++ undisturbed n :=
  List.replicate_add ..

theorem runLoop_undisturbed_of_continued {s u : State} (hstep : stepCommand s = (some .continued, u)) (k : Nat) :
    runLoop (undisturbed (k + 1)) false s = runLoop (undisturbed k) false u :=
  runLoop_of_continued rfl hstep (undisturbed k)

theorem runLoop_undisturbed_of_ended {s u : State} {o : StepOutcome} (ho : o ≠ .continued)
    (hstep : stepCommand s = (some o, u)) (k : Nat) : runLoop (undisturbed (k + 1)) false s = (.ended o, u) :=
  runLoop_of_ended rfl ho hstep (undisturbed k)

/-- A run without a stop request is not stopped, by induction on its boundaries: no stop is ever pending. -/
theorem runLoop_undisturbed_ne_stopped (k : Nat) : ∀ (s : State) (pc : Nat),
    (runLoop (undisturbed k) false s).1 ≠ .stopped pc := by
  induction k with
  | zero => exact fun _ _ => nofun
  | succ k ih =>
    intro s pc
    rcases hstep : stepCommand s with ⟨_ | o, u⟩
    · simp [undisturbed, List.replicate_succ, runLoop, stopsHere, hstep]
    · by_cases ho : o = .continued
      · subst ho
        rw [runLoop_undisturbed_of_continued hstep k]
        exact ih u pc
      · rw [runLoop_undisturbed_of_ended ho hstep k]
        exact nofun

/-- Settles O41: the steps that continued are a prefix of the run, and what the next step does decides the rest. -/
theorem runRepeatsStepsUntilAHalt : Obligations.RunRepeatsStepsUntilAHalt := by
  refine ⟨runLoop_undisturbed_ne_stopped, fun n s t hrun => ?_⟩
  have hsplit (k : Nat) : runCommand (undisturbed (n + k)) s = runLoop (undisturbed k) false t := by
    rw [undisturbed_add]
    exact runLoop_undisturbed_append _ n s t hrun
  refine ⟨fun u hstep => ?_, fun o u k ho hstep => ?_⟩
  · exact (hsplit 1).trans (runLoop_undisturbed_of_continued hstep 0)
  · rw [Nat.add_assoc, Nat.add_comm 1 k, hsplit]
    exact runLoop_undisturbed_of_ended ho hstep k

end Sys2Proof.Machine

/-! ## The two passes at a line in the middle of a text (45_assembler.md R174, R176, R177). -/

namespace Sys2Proof.Machine

theorem pass1_append (before after : List (Nat × Line)) :
    pass1 (before ++ after) = after.foldl pass1Line (pass1 before) := List.foldl_append

theorem pass2_append (table : List (List Char × Nat)) (before after : List (Nat × Line)) :
    pass2 table (before ++ after) = after.foldl (pass2Line table) (pass2 table before) := List.foldl_append

theorem asmDiags_eq_nil_iff {lines : List (Nat × Line)} :
    asmDiags lines = [] ↔
      (pass1 lines).diags = [] ∧ (pass1 lines).off ≤ 65536 ∧ (pass2 (pass1 lines).table lines).diags = [] := by
  simp [asmDiags, lengthDiags]

/-- Diagnostics are only ever added, so where pass 2 ends without one it has none after any of the lines. -/
theorem pass2_diags_nil_of_append {table : List (List Char × Nat)} {lines before after : List (Nat × Line)}
    (h : (pass2 table lines).diags = []) (hsplit : lines = before ++ after) : (pass2 table before).diags = [] := by
  obtain ⟨ds, hds⟩ := pass2_diags table after (pass2 table before)
  rw [hsplit, pass2_append, hds] at h
  exact (List.append_eq_nil_iff.1 h).1

/-- An instruction line that adds no diagnostic is one that encodes, and its bytes are appended to the code. -/
theorem pass2Line_instruction {table : List (List Char × Nat)} {p : Pass2} {n : Nat} {m : List Char}
    {ops : List (List Char)} (h : (pass2Line table p (n, .instruction m ops)).diags = []) :
    ∃ bytes, encodeLine table n m ops = .ok bytes ∧
      pass2Line table p (n, .instruction m ops) = { p with code := p.code ++ bytes } := by
  rcases henc : encodeLine table n m ops with d | bytes
  · simp [pass2Line, henc] at h
  · exact ⟨bytes, rfl, by simp only [pass2Line, henc]⟩

/-- One line that adds no diagnostic moves the two cursors alike: what it emits has the width pass 1 counts. -/
theorem pass2Line_length {table : List (List Char × Nat)} {p : Pass2} {q : Pass1} {l : Nat × Line}
    (hlen : p.code.length = q.off) (h : (pass2Line table p l).diags = []) :
    (pass2Line table p l).code.length = (pass1Line q l).off := by
  obtain ⟨n, _ | ⟨m, ops⟩ | _⟩ := l
  · exact hlen
  · obtain ⟨bytes, henc, hline⟩ := pass2Line_instruction h
    simp [hline, pass1Line, hlen, encodeLine_length henc]
  · exact hlen

/-- The cursors agree at the end of lines that pass 2 encodes without a diagnostic, by induction on the lines. -/
theorem pass2_length {table : List (List Char × Nat)} {lines : List (Nat × Line)}
    (h : (pass2 table lines).diags = []) : (pass2 table lines).code.length = (pass1 lines).off := by
  induction lines using List.reverseRecOn with
  | nil => rfl
  | append_singleton before l ih =>
    have hbefore := ih (pass2_diags_nil_of_append h rfl)
    rw [pass2_append] at h ⊢
    rw [pass1_append]
    exact pass2Line_length hbefore h

/-- Without a duplicate-label diagnostic a label is new at its line, and no later line takes its entry's place. -/
theorem pass1_lookup_label {lines before after : List (Nat × Line)} {n : Nat} {name rest : List Char}
    (h : (pass1 lines).diags = []) (hsplit : lines = before ++ (n, .label name rest) :: after) :
    (pass1 lines).table.lookup name = some (pass1 before).off := by
  obtain ⟨⟨ds, hds⟩, ts, hts⟩ := pass1_grows after (pass1Line (pass1 before) (n, .label name rest))
  rw [hsplit, pass1_append, List.foldl_cons] at h ⊢
  have hline : (pass1Line (pass1 before) (n, .label name rest)).diags = [] := (List.append_eq_nil_iff.1 (hds ▸ h)).1
  have hnew : (pass1 before).table.lookup name = none := by
    by_contra hbound
    simp [pass1Line, pass1Label, Option.isSome_iff_ne_none.2 hbound] at hline
  rw [hts]
  simp [pass1Line, pass1Label, List.lookup_append, hnew]

/-- Settles O42: neither pass has a diagnostic, so the cursors agree after the lines before any line. -/
theorem passesAgreeOnEveryOffset : Obligations.PassesAgreeOnEveryOffset := by
  intro lines hclean
  obtain ⟨hpass1, -, hpass2⟩ := asmDiags_eq_nil_iff.1 hclean
  have hcursor (before after : List (Nat × Line)) (hsplit : lines = before ++ after) :
      (pass2 (pass1 lines).table before).code.length = (pass1 before).off :=
    pass2_length (pass2_diags_nil_of_append hpass2 hsplit)
  refine ⟨pass2_length hpass2, fun before after l => hcursor before (l :: after), ?_⟩
  intro before after n name rest hsplit
  rw [hcursor before _ hsplit]
  exact pass1_lookup_label hpass1 hsplit

end Sys2Proof.Machine

/-! ## The assembled image (45_assembler.md R176, R184, R186). -/

namespace Sys2Proof.Machine

theorem assemble_of_asmDiags_nil {text : List Char} (h : asmDiags (sourceLines text) = []) (origin : Half) :
    assemble origin text =
      .image (imageOf origin origin (pass2 (pass1 (sourceLines text)).table (sourceLines text)).code) := by
  simp only [assemble, h]

theorem assemble_of_asmDiags_ne_nil {text : List Char} (h : asmDiags (sourceLines text) ≠ []) (origin : Half) :
    assemble origin text = .failed (asmDiags (sourceLines text)) := by
  obtain ⟨d, ds, hds⟩ := List.exists_cons_of_ne_nil h
  simp only [assemble, hds]

/-- The code of lines that encode is, around any instruction line, what stands before it, its bytes, and the rest. -/
theorem pass2_code_at_instruction {table : List (List Char × Nat)} {lines before after : List (Nat × Line)} {n : Nat}
    {m : List Char} {ops : List (List Char)} (h : (pass2 table lines).diags = [])
    (hsplit : lines = before ++ (n, .instruction m ops) :: after) :
    ∃ bytes rest, encodeLine table n m ops = .ok bytes ∧
      (pass2 table lines).code = (pass2 table before).code ++ bytes ++ rest := by
  rw [List.append_cons] at hsplit
  have hline := pass2_diags_nil_of_append h hsplit
  rw [pass2_append] at hline
  obtain ⟨bytes, henc, hbytes⟩ := pass2Line_instruction hline
  obtain ⟨rest, hrest⟩ := pass2_code table after (pass2 table (before ++ [(n, .instruction m ops)]))
  refine ⟨bytes, rest, henc, ?_⟩
  rw [hsplit, pass2_append, hrest, pass2_append, List.foldl_cons, List.foldl_nil, hbytes]

/-- Only an instruction line emits code. -/
theorem pass2_code_eq_nil (table : List (List Char × Nat)) {lines : List (Nat × Line)}
    (h : ∀ n m ops, (n, Line.instruction m ops) ∉ lines) : (pass2 table lines).code = [] := by
  induction lines using List.reverseRecOn with
  | nil => rfl
  | append_singleton before l ih =>
    have hbefore := ih fun n m ops hmem => h n m ops (List.mem_append_left _ hmem)
    rw [pass2_append]
    obtain ⟨n, _ | ⟨m, ops⟩ | _⟩ := l
    · exact hbefore
    · exact absurd (List.mem_append_right before List.mem_cons_self) (h n m ops)
    · exact hbefore

/-- Settles O43: an image comes of lines without a diagnostic alone, and then the passes agree at every line. -/
theorem assembledImageIsHeaderAndCode : Obligations.AssembledImageIsHeaderAndCode := by
  intro origin text lines table code
  by_cases hclean : asmDiags lines = []
  · have hasm := assemble_of_asmDiags_nil hclean origin
    obtain ⟨-, hoff, hpass2⟩ := asmDiags_eq_nil_iff.1 hclean
    obtain ⟨hlen, hcursor, -⟩ := passesAgreeOnEveryOffset lines hclean
    refine ⟨fun image himage => ?_, iff_of_true ⟨_, hasm⟩ hclean, fun ds hds => by cases hasm.symm.trans hds⟩
    cases hasm.symm.trans himage
    refine ⟨rfl, hlen.trans_le hoff, fun before after n m ops hsplit => ?_, pass2_code_eq_nil table⟩
    obtain ⟨bytes, rest, henc, hcode⟩ := pass2_code_at_instruction hpass2 hsplit
    exact ⟨bytes, rest, henc, hcode, hcursor before after _ hsplit⟩
  · have hasm := assemble_of_asmDiags_ne_nil hclean origin
    have hnone : ¬ ∃ image, assemble origin text = .image image := fun ⟨_, himage⟩ => by cases hasm.symm.trans himage
    exact ⟨fun image himage => absurd ⟨image, himage⟩ hnone, iff_of_false hnone hclean,
      fun ds hds => by cases hasm.symm.trans hds; rfl⟩

end Sys2Proof.Machine

/-! ## The bytes of an instruction line, by the format of its mnemonic (45_assembler.md R178 to R184). -/

namespace Sys2Proof.Machine

/-! One immediate token: a literal that fits, one that does not, and no literal. -/

section

variable {line limit n : Nat} {mk : Nat → Instr} {tok : List Char}

theorem encodeImmediate_of_lt (htok : readImmediate tok = some n) (hn : n < limit) :
    encodeImmediate line limit mk [tok] = .ok (encode (mk n)) := by
  simp only [encodeImmediate, htok, hn, if_true]

theorem encodeImmediate_of_le (htok : readImmediate tok = some n) (hn : limit ≤ n) :
    encodeImmediate line limit mk [tok] = .error (.malformedOperand line) := by
  simp only [encodeImmediate, htok, Nat.not_lt.2 hn, if_false]

theorem encodeImmediate_of_none (htok : readImmediate tok = none) :
    encodeImmediate line limit mk [tok] = .error (.malformedOperand line) := by
  simp only [encodeImmediate, htok]

end

/-! One token where a label is wanted: a reference to a declared label, to an undeclared one, and no reference. -/

section

variable {table : List (List Char × Nat)} {line n : Nat} {mk : Half → Instr} {tok name : List Char}

theorem encodeLabelRef_of_lookup (hname : isIdentifier name = true) (hn : table.lookup name = some n) :
    encodeLabelRef table line mk ['@' :: name] =
      if n < 65536 then .ok (encode (mk (BitVec.ofNat 16 n))) else .error .programTooLong := by
  simp only [encodeLabelRef, readLabelRef_eq_some.2 ⟨rfl, hname⟩, hn]

theorem encodeLabelRef_of_lookup_none (hname : isIdentifier name = true) (hn : table.lookup name = none) :
    encodeLabelRef table line mk ['@' :: name] = .error (.undefinedLabel line name) := by
  simp only [encodeLabelRef, readLabelRef_eq_some.2 ⟨rfl, hname⟩, hn]

theorem readLabelRef_eq_none (htok : ∀ l, isIdentifier l = true → tok ≠ '@' :: l) : readLabelRef tok = none :=
  Option.eq_none_iff_forall_ne_some.2 fun l h => htok l (readLabelRef_eq_some.1 h).2 (readLabelRef_eq_some.1 h).1

theorem encodeLabelRef_of_no_ref (htok : ∀ l, isIdentifier l = true → tok ≠ '@' :: l) :
    encodeLabelRef table line mk [tok] = .error (.malformedOperand line) := by
  simp only [encodeLabelRef, readLabelRef_eq_none htok]

end

/-- A mnemonic without an operand, STA apart, takes none. -/
theorem encodeLine_none {m : List Char} {i : Instr} (h : mnemonicLayout m = some (.none i)) (hi : i ≠ .sta)
    (table : List (List Char × Nat)) (line : Nat) (ops : List (List Char)) :
    encodeLine table line m ops = if ops.isEmpty then .ok (encode i) else .error (.malformedOperand line) := by
  cases i with
  | sta => exact absurd rfl hi
  | _ => simp only [encodeLine, h]

theorem encodeLine_sta (table : List (List Char × Nat)) (line : Nat) (ops : List (List Char)) :
    encodeLine table line "STA".toList ops = .ok (encodeSta ops) := rfl

theorem encodeLine_of_not_mem {m : List Char} (h : m ∉ mnemonics.map Prod.fst) (table : List (List Char × Nat))
    (line : Nat) (ops : List (List Char)) : encodeLine table line m ops = .error (.unknownMnemonic line m) := by
  simp only [encodeLine, mnemonicLayout, opcodeOf_eq_none h, Option.bind_none]

/-- The two operand bytes of a value that fits 16 bits, high byte first (D2). -/
theorem encode16_ofNat (op : Byte) {n : Nat} (hn : n < 65536) :
    encode16 op (BitVec.ofNat 16 n) = [op, BitVec.ofNat 8 (n / 256), BitVec.ofNat 8 (n % 256)] := by
  have hmod : n % 2 ^ 16 = n := Nat.mod_eq_of_lt hn
  simp only [encode16, hiByte, loByte, BitVec.toNat_ofNat, hmod]

/-- Settles O44: each class of mnemonics has one format, and the format's rule is the row of the table. -/
theorem instructionLinesEncodeAsTheTable : Obligations.InstructionLinesEncodeAsTheTable := by
  intro table line m tok name ops op n
  refine ⟨fun hmem => ?_, fun hmem => ?_, fun hmem => ?_, rfl, fun hops => ?_, fun hmem => ?_, fun hmem => ?_⟩
  · obtain ⟨mk, hm, henc⟩ : ∃ mk, mnemonicLayout m = some (.imm8 mk) ∧ ∀ v, encode (mk v) = encode8 op v := by
      simp only [List.mem_cons, Prod.mk.injEq, List.not_mem_nil, or_false] at hmem
      rcases hmem with ⟨rfl, rfl⟩ | ⟨rfl, rfl⟩ | ⟨rfl, rfl⟩ | ⟨rfl, rfl⟩ <;> exact ⟨_, rfl, fun _ => rfl⟩
    simp only [encodeLine_imm8 hm]
    refine ⟨fun htok hn => ?_, encodeImmediate_of_le, encodeImmediate_of_none,
      fun hops => encodeImmediate_of_length_ne_one hops ..⟩
    rw [encodeImmediate_of_lt htok hn, henc, encode8]
  · obtain ⟨mk, hm, henc⟩ : ∃ mk, mnemonicLayout m = some (.imm16 mk) ∧ ∀ v, encode (mk v) = encode16 op v := by
      simp only [List.mem_cons, Prod.mk.injEq, List.not_mem_nil, or_false] at hmem
      rcases hmem with ⟨rfl, rfl⟩ | ⟨rfl, rfl⟩ | ⟨rfl, rfl⟩ | ⟨rfl, rfl⟩ | ⟨rfl, rfl⟩ <;> exact ⟨_, rfl, fun _ => rfl⟩
    simp only [encodeLine_imm16 hm]
    refine ⟨fun htok hn => ?_, encodeImmediate_of_le, encodeImmediate_of_none,
      fun hops => encodeImmediate_of_length_ne_one hops ..⟩
    rw [encodeImmediate_of_lt htok hn, henc, encode16_ofNat op hn]
  · obtain ⟨mk, hm, henc⟩ : ∃ mk, mnemonicLayout m = some (.addr16 mk) ∧ ∀ v, encode (mk v) = encode16 op v := by
      simp only [List.mem_cons, Prod.mk.injEq, List.not_mem_nil, or_false] at hmem
      rcases hmem with ⟨rfl, rfl⟩ | ⟨rfl, rfl⟩ | ⟨rfl, rfl⟩ | ⟨rfl, rfl⟩ | ⟨rfl, rfl⟩ <;> exact ⟨_, rfl, fun _ => rfl⟩
    simp only [encodeLine_addr16 hm]
    refine ⟨fun hname htab hn => ?_, fun hname htab hn => ?_, encodeLabelRef_of_lookup_none, encodeLabelRef_of_no_ref,
      fun hops => encodeLabelRef_of_length_ne_one hops ..⟩
    · rw [encodeLabelRef_of_lookup hname htab, if_pos hn, henc, encode16_ofNat op hn]
    · rw [encodeLabelRef_of_lookup hname htab, if_neg (Nat.not_lt.2 hn)]
  · rw [encodeLine_sta, encodeSta, if_neg hops]
  · obtain ⟨i, hm, hi, henc⟩ : ∃ i, mnemonicLayout m = some (.none i) ∧ i ≠ .sta ∧ encode i = [op] := by
      simp only [List.mem_cons, Prod.mk.injEq, List.not_mem_nil, or_false] at hmem
      rcases hmem with ⟨rfl, rfl⟩ | ⟨rfl, rfl⟩ | ⟨rfl, rfl⟩ | ⟨rfl, rfl⟩ | ⟨rfl, rfl⟩ | ⟨rfl, rfl⟩ | ⟨rfl, rfl⟩ |
        ⟨rfl, rfl⟩ | ⟨rfl, rfl⟩ | ⟨rfl, rfl⟩ | ⟨rfl, rfl⟩ <;> exact ⟨_, rfl, nofun, rfl⟩
    simp only [encodeLine_none hm hi, henc]
    exact ⟨rfl, fun hops => if_neg (by simpa using hops)⟩
  · exact encodeLine_of_not_mem (fun hm => hmem ((show mnemonics.map Prod.fst ⊆ _ by decide) hm)) table line ops

end Sys2Proof.Machine

/-! ## The abnormal ends of a step, in the order of its reads (60_exceptions.md R201 to R207). -/

namespace Sys2Proof.Machine

theorem State.lt_memSize_of_readByte {s : State} {a : Nat} {v : Byte} (h : s.readByte a = some v) :
    a < s.cfg.memSize := by
  by_contra hle
  rw [State.readByte_of_le (Nat.le_of_not_lt hle)] at h
  cases h

/-! What a fetch read that fails has met: the first of its addresses that is out of range. -/

theorem State.memRead_error {s : State} {a : Nat} {f : Fault} (h : s.memRead a = .error f) :
    f = .fetchOutOfRange a ∧ s.cfg.memSize ≤ a := by
  rcases Nat.lt_or_ge a s.cfg.memSize with hlt | hle
  · cases (State.memRead_of_lt hlt).symm.trans h
  · cases (State.memRead_of_le hle).symm.trans h
    exact ⟨rfl, hle⟩

theorem State.memRead2_error {s : State} {a : Nat} {f : Fault} (h : s.memRead2 a = .error f) :
    ∃ k < 2, f = .fetchOutOfRange (a + k) ∧ s.cfg.memSize ≤ a + k := by
  rcases Nat.lt_trichotomy (a + 1) s.cfg.memSize with hlt | heq | hgt
  · cases (State.memRead2_of_lt hlt).symm.trans h
  · cases (State.memRead2_of_succ_eq heq).symm.trans h
    exact ⟨1, by decide, rfl, heq.ge⟩
  · have hle : s.cfg.memSize ≤ a := Nat.le_of_lt_succ hgt
    cases (State.memRead2_of_le hle).symm.trans h
    exact ⟨0, by decide, rfl, hle⟩

/-- What makes an instruction of an operand adds no error to the operand's read. -/
theorem eq_error_of_map_eq_error {ε α β : Type} {mk : α → β} {x : Except ε α} {e : ε} (h : x.map mk = .error e) :
    x = .error e := by
  cases x with
  | error _ =>
    cases h
    rfl
  | ok _ => cases h

/-- Why a fetch fails: an instruction byte out of range, or an opcode byte without a row (R201, R202). -/
theorem fetch_error {s : State} {f : Fault} (h : fetch s = .error f) :
    (∃ k < 3, f = .fetchOutOfRange (s.pc + k) ∧ s.cfg.memSize ≤ s.pc + k) ∨
    ∃ op, f = .unknownOpcode s.pc op ∧ s.readByte s.pc = some op ∧ layoutOf op = none := by
  unfold fetch at h
  split at h
  case h_1 g hg =>
    cases h
    exact .inl ⟨0, by decide, State.memRead_error hg⟩
  case h_2 op hop =>
    split at h
    case h_1 hl =>
      cases h
      exact .inr ⟨op, rfl, State.memRead_ok hop, hl⟩
    case h_2 => cases h
    case h_3 => exact .inl ⟨1, by decide, State.memRead_error (eq_error_of_map_eq_error h)⟩
    case h_4 | h_5 =>
      obtain ⟨k, hk, hf, hle⟩ := State.memRead2_error (eq_error_of_map_eq_error h)
      rw [Nat.add_assoc] at hf hle
      exact .inl ⟨1 + k, by omega, hf, hle⟩

/-- The operand bytes are read after a recognised opcode byte, lower address first: the byte at the end of memory is the
first one out of range (R202, R206). -/
theorem fetch_of_operand_out_of_range {s : State} {op : Byte} {l : Layout} {k : Nat}
    (hop : s.readByte s.pc = some op) (hl : layoutOf op = some l) (hk : k < l.length)
    (hend : s.pc + k = s.cfg.memSize) : fetch s = .error (.fetchOutOfRange (s.pc + k)) := by
  have hpos : 0 < k := by
    have := State.lt_memSize_of_readByte hop
    omega
  have hread := State.memRead_of_readByte hop
  cases l with
  | none i => exact absurd hk (Nat.not_lt.2 hpos)
  | imm8 mk =>
    obtain rfl : k = 1 := Nat.le_antisymm (Nat.le_of_lt_succ hk) hpos
    simp only [fetch, hread, hl, State.memRead_of_le hend.ge, Except.map]
  | imm16 mk | addr16 mk =>
    have hmem2 : s.memRead2 (s.pc + 1) = .error (.fetchOutOfRange (s.pc + k)) := by
      obtain rfl | rfl : k = 1 ∨ k = 2 := by
        change k < 3 at hk
        omega
      · exact State.memRead2_of_le hend.ge
      · exact State.memRead2_of_succ_eq hend
    simp only [fetch, hread, hl, hmem2, Except.map]

theorem fetch_eq_sta_iff (s : State) : fetch s = .ok .sta ↔ s.readByte s.pc = some 0x03 :=
  ⟨fun h => bytesAtPc_of_fetch h 0 0x03 rfl, fun h => fetch_of_readByte h rfl⟩

/-- No instruction is refused, so no step is. -/
theorem step_ne_refused (s : State) (r : Refusal) : step s ≠ .refused r := by
  intro h
  cases hfetch : fetch s with
  | error f => cases (step_of_fetch_error hfetch).symm.trans h
  | ok i =>
    rw [step_of_fetch hfetch] at h
    cases hexec : exec i s with
    | refused r' => exact exec_ne_refused i s r' hexec
    | next t | fault f => simp only [hexec, reduceCtorEq] at h

/-- Settles O8: the first three are the fetch's reads in their order, the last is the rule of the fetched STA. -/
theorem stepStopsInTheOrderOfItsReads : Obligations.StepStopsInTheOrderOfItsReads := by
  intro s
  refine ⟨step_of_memSize_le_pc, fun op => step_of_layoutOf_eq_none, fun op l k hop hl hk hend => ?_, fun hop hx => ?_⟩
  · exact step_of_fetch_error (fetch_of_operand_out_of_range hop hl hk hend)
  · rw [step_of_fetch ((fetch_eq_sta_iff s).2 hop), (staWritesThroughX s).2 hx]

/-- Settles O9: a fault is the fetch's, or that of a fetched STA. -/
theorem stepStopsForNoOtherReason : Obligations.StepStopsForNoOtherReason := by
  intro s
  refine ⟨step_ne_refused s, fun f h => ?_⟩
  rcases step_fault h with hfetch | ⟨i, hfetch, hexec⟩
  · exact (fetch_error hfetch).imp_right .inl
  · obtain ⟨rfl, hx, hf⟩ := exec_fault hexec
    exact .inr (.inr ⟨hf, (fetch_eq_sta_iff s).1 hfetch, hx⟩)

/-- Settles O10: the end of the step emits the diagnostic and reports the outcome, and is all that happens. -/
theorem abnormalEndLeavesTheState : Obligations.AbnormalEndLeavesTheState := fun _ _ => stepCommand_of_fault

end Sys2Proof.Machine

/-! ## The loader, and the boot sequence (70_reset_and_hazards.md R222 to R224). -/

namespace Sys2Proof.Machine

theorem codeFits_iff {memSize startAddr : Nat} {code : List Byte} :
    codeFits memSize startAddr code = true ↔ code = [] ∨ startAddr + code.length ≤ memSize := by
  simp only [codeFits, Bool.or_eq_true, List.isEmpty_iff, decide_eq_true_eq]

@[simp] theorem State.loadCode_cfg (s : State) (startAddr entryAddr : Half) (code : List Byte) :
    (s.loadCode startAddr entryAddr code).cfg = s.cfg := rfl

@[simp] theorem State.loadCode_mem (s : State) (startAddr entryAddr : Half) (code : List Byte) :
    (s.loadCode startAddr entryAddr code).mem = s.mem.copy startAddr.toNat code := rfl

/-- The copied range reads as the code. -/
theorem State.readByte_loadCode_of_getElem? {s : State} {startAddr : Half} {code : List Byte} (hw : s.mem.wf = true)
    (hfits : codeFits s.cfg.memSize startAddr.toNat code = true) (entryAddr : Half) {k : Nat} {v : Byte}
    (hk : code[k]? = some v) : (s.loadCode startAddr entryAddr code).readByte (startAddr.toNat + k) = some v := by
  obtain ⟨hlt, rfl⟩ := List.getElem?_eq_some_iff.1 hk
  have hne : code ≠ [] := List.ne_nil_of_length_pos (Nat.zero_lt_of_lt hlt)
  have hend := (codeFits_iff.1 hfits).resolve_left hne
  have hsize : startAddr.toNat + k < s.cfg.memSize := by omega
  rw [State.readByte_of_lt (by simpa using hsize), State.loadCode_mem, Memory.get_copy _ code _ hw, dif_pos (by omega)]
  simp only [Nat.add_sub_cancel_left]

/-- Outside the copied range nothing changes. -/
theorem State.readByte_loadCode_of_outside {s : State} {startAddr : Half} {code : List Byte} (hw : s.mem.wf = true)
    (entryAddr : Half) {a : Nat} (ha : a < startAddr.toNat ∨ startAddr.toNat + code.length ≤ a) :
    (s.loadCode startAddr entryAddr code).readByte a = s.readByte a := by
  have hget : (s.mem.copy startAddr.toNat code).get a = s.mem.get a := by
    rw [Memory.get_copy a code _ hw, dif_neg (by omega)]
  simp only [State.readByte, State.loadCode_cfg, State.loadCode_mem, hget]

/-- Settles O37: what a byte of the loaded memory reads as is the law of the loader's copy. -/
theorem loadPlacesTheCode : Obligations.LoadPlacesTheCode := by
  intro s startAddr entryAddr code hw hplace
  have hfits := codeFits_iff.2 hplace
  exact ⟨_, loadCommand_imageOf s startAddr entryAddr code hfits, rfl, rfl,
    fun _ _ => State.readByte_loadCode_of_getElem? hw hfits entryAddr,
    fun _ => State.readByte_loadCode_of_outside hw entryAddr, rfl⟩

theorem loadTextCommand_of_none {text : List Char} (h : fromHexText text = none) (s : State) :
    loadTextCommand text s = (.refused .badHexText, s) := by
  simp only [loadTextCommand, h]

theorem loadTextCommand_of_some {text : List Char} {image : List Byte} (h : fromHexText text = some image) (s : State) :
    loadTextCommand text s = loadCommand image s := by
  simp only [loadTextCommand, h]

/-- A load of a text that does not end loaded changes nothing but the events, as the load of an image does. -/
theorem loadTextCommand_withoutOutputs {text : List Char} {s : State} (h : (loadTextCommand text s).1 ≠ .loaded) :
    (loadTextCommand text s).2.withoutOutputs = s.withoutOutputs := by
  cases htext : fromHexText text with
  | none => rw [loadTextCommand_of_none htext]
  | some image =>
    rw [loadTextCommand_of_some htext] at h ⊢
    exact (loadCommand_cases image s).resolve_left h

theorem loadCommand_of_bad_magic {image : List Byte} (h : image.take 3 ≠ magic) (s : State) :
    loadCommand image s = (.badMagic, s.emit (.diag .badMagic)) :=
  if_neg h

/-- The two addresses of the header take four bytes after the magic (30_encoding.md R76). -/
theorem loadBody_of_length_lt {body : List Byte} (h : body.length < 4) (s : State) :
    loadBody body s = (.refused .truncatedHeader, s) := by
  unfold loadBody
  split
  · simp only [List.length_cons] at h
    omega
  · rfl

theorem loadCommand_of_short_header {image : List Byte} (hmagic : image.take 3 = magic) (h : image.length < 7) (s : State) :
    loadCommand image s = (.refused .truncatedHeader, s) := by
  have hbody : (image.drop 3).length < 4 := by
    rw [List.length_drop]
    omega
  exact (if_pos hmagic).trans (loadBody_of_length_lt hbody s)

/-- `load` of a whole image that does not fit. -/
theorem loadCommand_imageOf_of_not_codeFits {s : State} {startAddr : Half} {code : List Byte} (entryAddr : Half)
    (h : ¬ codeFits s.cfg.memSize startAddr.toNat code = true) :
    loadCommand (imageOf startAddr entryAddr code) s = (.refused .imageOutOfRange, s) := by
  simp [loadCommand, imageOf, imageHeader, magic, loadBody, h]

/-- Settles O38: each test is met where the tests before it pass, and none but the magic's emits anything. -/
theorem failedLoadChangesNothing : Obligations.FailedLoadChangesNothing := by
  intro text s
  refine ⟨loadTextCommand_withoutOutputs, fun h => loadTextCommand_of_none h s, fun image h hmagic => ?_,
    fun image h hmagic hshort => ?_, fun startAddr entryAddr code h hne hend => ?_⟩
  · rw [loadTextCommand_of_some h]
    exact loadCommand_of_bad_magic hmagic s
  · rw [loadTextCommand_of_some h]
    exact loadCommand_of_short_header hmagic hshort s
  · rw [loadTextCommand_of_some h]
    refine loadCommand_imageOf_of_not_codeFits entryAddr fun hfits => ?_
    exact absurd ((codeFits_iff.1 hfits).resolve_left hne) (by omega)

/-- A text that assembles boots as its image loads after `init`: `init` keeps ORIGIN, and the hex text carries the image. -/
theorem boot_of_assemble {s : State} {text : List Char} {image : List Byte}
    (h : assemble s.cfg.origin text = .image image) : boot text s = some (loadCommand image (initCommand s)) := by
  have hasm : assembleCommand text (initCommand s) = (.image image, initCommand s) := by
    have hinit : assemble (initCommand s).cfg.origin text = .image image := h
    simp only [assembleCommand, hinit]
  simp only [boot, hasm, loadTextCommand_of_some (fromHexText_toHexText image)]

/-- Settles O45: the boot sequence is a load of the assembled image into the state after `init`, whose memory is empty and
whose `pc` and `start` are 0. -/
theorem bootPlacesTheAssembledProgram : Obligations.BootPlacesTheAssembledProgram := by
  intro s text code hasm hplace
  obtain ⟨t, hload, hstart, hpc, hcode, houtside, hrest⟩ :=
    loadPlacesTheCode (initCommand s) s.cfg.origin s.cfg.origin code rfl hplace
  exact ⟨t, (boot_of_assemble hasm).trans (congrArg some hload), hpc, hstart, hcode, houtside, hrest⟩

end Sys2Proof.Machine
